-- ==== Sys2Proof/Word.lean ====
section
/-! DEFINITION. The word types of the DotAI BitReader: bytes of the buffer, command words, and the exact quantized values of rule R12. -/

namespace Sys2Proof

/-- One byte of the buffer; bit 0 is its least-significant bit (R7). -/
abbrev Byte := BitVec 8

/-- A 32-bit command word (R61, R66). -/
abbrev Command := BitVec 32

/-- A signed-magnitude rational (R12): `mag` is non-negative, and `mag = 0` with `neg = true` is the negative zero. -/
structure SignedMag where
  neg : Bool
  mag : Rat
  deriving DecidableEq, Repr

/-- The z component of a 3f-normal (R12, R184): the sign and the exact square of the magnitude. -/
structure SignedRoot where
  neg : Bool
  sq : Rat
  deriving DecidableEq, Repr

/-- The positive zero `(0, 0)` of R184 and R186. -/
def SignedMag.zero : SignedMag := { neg := false, mag := 0 }

/-- The real value of a signed-magnitude rational (R12). -/
def SignedMag.value (q : SignedMag) : Rat := if q.neg then -q.mag else q.mag

end Sys2Proof
end

