-- ==== Sys2Proof/Syntax.lean ====
section
/-! DEFINITION. The abstract syntax: one constructor for each of the 18 commands of R63. The four operand forms carry `N` (R62). -/

namespace Sys2Proof

inductive Instr where
  | nextBit
  | readBits (n : Nat)
  | remaining
  | readByteArray (count : Nat)
  | readBytesForBits (nbits : Nat)
  | readBitVar
  | readVarUInt32
  | readVarUInt64
  | readVarSInt
  | readFieldPathBitVar
  | readLittleEndian32
  | readLittleEndian64
  | readFloat
  | readString
  | readAngle (n : Nat)
  | readNormal
  | read3fNormal
  | readCoord
  deriving DecidableEq, Repr

end Sys2Proof
end

