-- ==== Sys2Proof/WellFormed.lean ====
section
/-! DEFINITION. Which terms of the syntax are commands: an operand is a 24-bit unsigned number (R62). -/

namespace Sys2Proof

/-- The largest operand, 16 777 215 (R62). -/
abbrev maxOperand : Nat := 16777215

/-- Every operand fits the 24-bit field `N` (R61, R62); an operand-less command has nothing to check. -/
def Instr.wf : Instr → Bool
  | .nextBit => true
  | .readBits n => decide (n ≤ maxOperand)
  | .remaining => true
  | .readByteArray count => decide (count ≤ maxOperand)
  | .readBytesForBits nbits => decide (nbits ≤ maxOperand)
  | .readBitVar => true
  | .readVarUInt32 => true
  | .readVarUInt64 => true
  | .readVarSInt => true
  | .readFieldPathBitVar => true
  | .readLittleEndian32 => true
  | .readLittleEndian64 => true
  | .readFloat => true
  | .readString => true
  | .readAngle n => decide (n ≤ maxOperand)
  | .readNormal => true
  | .read3fNormal => true
  | .readCoord => true

end Sys2Proof
end

