-- ==== Sys2Proof/Decode.lean ====
section
/-! DEFINITION. The command decoder of R64, total on all 2^32 words, and the encoder written from the same table (R61 to R63). -/

namespace Sys2Proof

/-- Why a command word spells no operation (R64, R65). -/
inductive Illegal where
  /-- The opcode is one of the 238 reserved ones (R65). -/
  | reservedOpcode (op : BitVec 8)
  /-- An operand-less opcode with a non-zero `N` (R64). -/
  | reservedOperandBits (op : BitVec 8) (n : BitVec 24)
  deriving DecidableEq, Repr

/-- The field `OP`, bits 31:24 (R61). -/
def opField (w : Command) : BitVec 8 := w.extractLsb' 24 8

/-- The field `N`, bits 23:0 (R61), unsigned and unscaled (R62). -/
def nField (w : Command) : BitVec 24 := w.extractLsb' 0 24

/-- An operand-less form: `N` must be 0 (R64). -/
def decodePlain (i : Instr) (op : BitVec 8) (n : BitVec 24) : Except Illegal Instr :=
  if n = 0 then .ok i else .error (.reservedOperandBits op n)

/-- `Decode` of R64 on the two fields. -/
def decodeFields (op : BitVec 8) (n : BitVec 24) : Except Illegal Instr :=
  match op with
  | 0x01#8 => decodePlain .nextBit op n
  | 0x02#8 => .ok (.readBits n.toNat)
  | 0x03#8 => decodePlain .remaining op n
  | 0x04#8 => .ok (.readByteArray n.toNat)
  | 0x05#8 => .ok (.readBytesForBits n.toNat)
  | 0x10#8 => decodePlain .readBitVar op n
  | 0x11#8 => decodePlain .readVarUInt32 op n
  | 0x12#8 => decodePlain .readVarUInt64 op n
  | 0x13#8 => decodePlain .readVarSInt op n
  | 0x14#8 => decodePlain .readFieldPathBitVar op n
  | 0x20#8 => decodePlain .readLittleEndian32 op n
  | 0x21#8 => decodePlain .readLittleEndian64 op n
  | 0x22#8 => decodePlain .readFloat op n
  | 0x23#8 => decodePlain .readString op n
  | 0x30#8 => .ok (.readAngle n.toNat)
  | 0x31#8 => decodePlain .readNormal op n
  | 0x32#8 => decodePlain .read3fNormal op n
  | 0x33#8 => decodePlain .readCoord op n
  | _ => .error (.reservedOpcode op)

/-- `Decode` of R64: a command, or the reason why the word is `Illegal`. -/
def decode (w : Command) : Except Illegal Instr := decodeFields (opField w) (nField w)

/-- The opcode column of R63. -/
def opcode : Instr → BitVec 8
  | .nextBit => 0x01
  | .readBits _ => 0x02
  | .remaining => 0x03
  | .readByteArray _ => 0x04
  | .readBytesForBits _ => 0x05
  | .readBitVar => 0x10
  | .readVarUInt32 => 0x11
  | .readVarUInt64 => 0x12
  | .readVarSInt => 0x13
  | .readFieldPathBitVar => 0x14
  | .readLittleEndian32 => 0x20
  | .readLittleEndian64 => 0x21
  | .readFloat => 0x22
  | .readString => 0x23
  | .readAngle _ => 0x30
  | .readNormal => 0x31
  | .read3fNormal => 0x32
  | .readCoord => 0x33

/-- The operand `N` of the four operand forms, 0 for every other command (R62). -/
def operandOf : Instr → Nat
  | .readBits n => n
  | .readByteArray count => count
  | .readBytesForBits nbits => nbits
  | .readAngle n => n
  | _ => 0

/-- The command word `(OP << 24) | N` of R68, as the two fields side by side (R61). -/
def encode (i : Instr) : Command := opcode i ++ BitVec.ofNat 24 (operandOf i)

/-- What the decoder reads from a table word of `nbits` bits, every bit above them 0. A command word is 32 bits and is
handed over whole (R60), so no byte order is involved. -/
def decodeTableWord (nbits w : Nat) : Option Instr :=
  match decode (BitVec.ofNat 32 (w % 2 ^ nbits)) with
  | .ok i => some i
  | .error _ => none

end Sys2Proof
end

