-- ==== Sys2Proof/Machine/State.lean ====
section
/-! DEFINITION. The state of one BitReader instance and of its host interface, the responses, and the reasons why there is no next state. -/

namespace Sys2Proof.Machine

/-- Memory as a list of (address, byte) pairs. Its canonical form is `Memory.wf` in Ops: addresses strictly rising, and no
entry equal to the byte an unlisted address reads as. -/
abbrev Memory := List Host.Cell

/-- The buffer (R20, R21): `cells` is `BUF`, `len` is `BUF_LEN`. -/
structure Buffer where
  cells : Memory
  len : Nat
  deriving DecidableEq, Repr

/-- The four error kinds (R27, R220). -/
inductive ErrorKind where
  /-- A bit at or beyond `8·BUF_LEN` was wanted (R221). -/
  | endOfBuffer
  /-- `ReadBits` was asked for more than 32 bits (R222). -/
  | invalidWidth
  /-- A VarUInt did not end within its group bound, or its value does not fit its width (R224, R135). -/
  | malformedVarInt
  /-- The command word spells no operation (R225). -/
  | illegalCommand
  deriving DecidableEq, Repr

/-- The architectural state of a loaded instance (R20). -/
structure Block where
  /-- `BUF` and `BUF_LEN`, written by `LOAD` only (R21). -/
  buf : Buffer
  /-- `POS`, the bits consumed since `LOAD` (R22). -/
  pos : Nat
  /-- `ERR`, 3 bits, 0 = no failure since `LOAD` (R26, R27). -/
  err : BitVec 3
  /-- `ERR_START`, `POS` when the failing command began (R28). -/
  errStart : Nat
  /-- `ERR_POS`, `POS` when the failure was detected (R28). -/
  errPos : Nat
  deriving DecidableEq, Repr

/-- The typed value of an `Ok` response (R67). -/
inductive Value where
  /-- NEXTBIT. -/
  | bit (b : Bool)
  /-- READBITS, READBITVAR, READVARUINT32, READVARUINT64, READFPBITVAR: an unsigned integer. -/
  | unsigned (v : Nat)
  /-- REMAINING: a natural number of bits. -/
  | natural (v : Nat)
  /-- READVARSINT: a signed integer. -/
  | signed (v : Int)
  /-- READBYTEARRAY, READBYTESFORBITS. -/
  | bytes (bs : List Byte)
  /-- READLE32: the word; its integer value is `signed_32`. -/
  | word32 (w : BitVec 32)
  /-- READLE64: the word; its integer value is `signed_64`. -/
  | word64 (w : BitVec 64)
  /-- READFLOAT: an IEEE-754 binary32 bit pattern, unchanged (R163). -/
  | floatBits (w : BitVec 32)
  /-- READSTRING: the non-zero bytes before the terminator. -/
  | string (bs : List Byte)
  /-- READANGLE, READNORMAL, READCOORD: an exact signed-magnitude rational. -/
  | quantized (q : SignedMag)
  /-- READ3FNORMAL: x, y and the signed square root z. -/
  | normal3 (x y : SignedMag) (z : SignedRoot)
  deriving DecidableEq, Repr

/-- The response to one command word (R67). `kind` is an `ERR` code (R27), positions are in bits (R28). -/
inductive Response where
  | ok (v : Value)
  | err (kind : BitVec 3) (start pos : Nat)
  | faulted (kind : BitVec 3) (start pos : Nat)
  deriving DecidableEq, Repr

/-- What the host does to an instance (R60, R259): `LOAD(bytes)`, or one command word. -/
inductive HostAction where
  | load (bytes : List Byte)
  | command (w : Command)
  deriving DecidableEq, Repr

/-- One instance with its host interface. `block = none` is the unloaded state, which holds no values at all (R32).
`pending` and `responses` are the model's own fields (log entry 2): what the host does next, in order, and every response
given so far, oldest first. -/
structure State where
  block : Option Block
  pending : List HostAction
  responses : List Response
  deriving DecidableEq, Repr

/-- The BitReader never stops with a fault: every error of R220 is a response, and the machine goes on (R228). -/
inductive Fault where
  deriving DecidableEq, Repr

/-- Why there is no next state. -/
inductive Refusal where
  /-- Raised by `exec` for a command that has no meaning in the model; no arm raises it. Safe. -/
  | notModelled (mnemonic : String)
  /-- Raised by every command word before the first `LOAD` (R32, R254): the spec gives no response and no step. Safe. -/
  | unloaded
  /-- Raised by `step` when the host has nothing more to do: the block never starts work by itself (R259). Safe. -/
  | hostIdle
  deriving DecidableEq, Repr

/-- An instance before its first `LOAD` (R32). -/
def State.unloaded : State := { block := none, pending := [], responses := [] }

/-- The machine right after reset. Reset is `LOAD(bytes)` (R250, D23), which sets every register to 0 (R251, R252) and binds
the bytes given. DESIGN CHOICE (log entry 1): the bytes are the empty sequence, a legal buffer (R255). -/
def State.reset : State :=
  { block := some { buf := { cells := [], len := 0 }, pos := 0, err := 0, errStart := 0, errPos := 0 }
    pending := []
    responses := [] }

end Sys2Proof.Machine
end

