-- ==== Sys2Proof/Machine/Flags.lean ====
section
/-! DEFINITION. The block has no flag register and no condition codes (R20, R29). Its derived quantities and predicates stand here. -/

namespace Sys2Proof.Machine

/-- `8·BUF_LEN`, the number of bits of the stream (R8). -/
def Buffer.bits (B : Buffer) : Nat := 8 * B.len

/-- `remaining = 8·BUF_LEN − POS` (R25). -/
def remainingBits (B : Buffer) (pos : Nat) : Nat := B.bits - pos

/-- The block is exhausted when nothing remains (R25). -/
def exhausted (b : Block) : Bool := remainingBits b.buf b.pos == 0

/-- The block is faulted when `ERR ≠ 0` (R29). -/
def faulted (b : Block) : Bool := b.err != 0

/-- The document's `bytePosition` (R22). -/
def bytePosition (b : Block) : Nat := b.pos / 8

/-- The document's `bitOffset` (R22). -/
def bitOffset (b : Block) : Nat := b.pos % 8

end Sys2Proof.Machine
end

