-- ==== Sys2Proof/Machine/Operands.lean ====
section
/-! DEFINITION. Numbers as the rules write them: two's complement, little-endian words, exact quotients (R10, R12). An operand is `N` as it stands (R62), so it needs no function. -/

namespace Sys2Proof.Machine

/-- `signed_n(w)` of R10. -/
def signedOf (n w : Nat) : Int := if w < 2 ^ (n - 1) then (w : Int) else (w : Int) - 2 ^ n

/-- The signed reading of a little-endian word (R160, R162); other values have none. -/
def Value.signedReading : Value → Option Int
  | .word32 w => some (signedOf 32 w.toNat)
  | .word64 w => some (signedOf 64 w.toNat)
  | .signed v => some v
  | _ => none

/-- `Σ byte_j << (8·j)` over the bytes from index `j` on (R76, R160, R162). -/
def leWordFrom : Nat → List Byte → Nat
  | _, [] => 0
  | j, b :: bs => (b.toNat <<< (8 * j)) ||| leWordFrom (j + 1) bs

/-- The exact non-negative quotient `num / den` (R12). -/
def ratio (num den : Nat) : Rat := mkRat num den

/-- The zig-zag image back to its signed value (R137): a logical shift, and `-(u & 1)` as a 32-bit word. -/
def unzigzag (u : Nat) : Int :=
  signedOf 32 ((u >>> 1) ^^^ (if u &&& 1 = 1 then 0xFFFFFFFF else 0))

end Sys2Proof.Machine
end

