-- ==== Sys2Proof/Machine/Ops.lean ====
section
/-! DEFINITION. The shared operations: the buffer, `TakeBit` and what is built on it (R100 to R107, R132), the command wrapper with error capture (R228), and `LOAD` (R250). -/

namespace Sys2Proof.Machine

/-! ### The buffer (R11, R21) -/

/-- What an unlisted address of the buffer reads as: `LOAD` lists exactly the bytes that are not 0 (log entry 3). -/
def unlistedByte : Byte := 0

/-- The byte a memory holds at an address. -/
def Memory.read : Memory → Nat → Byte
  | [], _ => unlistedByte
  | (k, v) :: rest, a => if k = a then v else Memory.read rest a

/-- The canonical form from address `lo` on: addresses strictly rising and below `len`, no entry an unlisted address reads as. -/
def Memory.wfFrom (len : Nat) : Nat → Memory → Bool
  | _, [] => true
  | lo, (k, v) :: rest => decide (lo ≤ k ∧ k < len ∧ v ≠ unlistedByte) && Memory.wfFrom len (k + 1) rest

/-- The canonical form of a buffer's memory: equal buffers are equal data. -/
def Memory.wf (len : Nat) (m : Memory) : Bool := Memory.wfFrom len 0 m

/-- The canonical memory that holds `bytes` from address `a` on. -/
def Memory.ofBytesFrom : Nat → List Byte → Memory
  | _, [] => []
  | a, v :: rest =>
    if v = unlistedByte then Memory.ofBytesFrom (a + 1) rest else (a, v) :: Memory.ofBytesFrom (a + 1) rest

/-- The buffer over the bytes given to `LOAD` (R250). -/
def Buffer.ofBytes (bytes : List Byte) : Buffer :=
  { cells := Memory.ofBytesFrom 0 bytes, len := bytes.length }

/-- `MemRead(a, 1)` (R11). Its one caller is `bitAt`, and `takeBit` has checked that the address exists. -/
def memRead (B : Buffer) (a : Nat) : Byte := Memory.read B.cells a

/-- `Bit(p)` (R8, R11): bit `p mod 8` of byte `p div 8`. -/
def bitAt (B : Buffer) (p : Nat) : Bool := (memRead B (p / 8)).getLsbD (p % 8)

/-! ### Consuming bits (R100 to R107) -/

/-- A read: from the cursor to a value and a new cursor, or to an error and the detection position. An error keeps every
change made to the cursor before it, and nothing catches it (R223). -/
abbrev Read := EStateM ErrorKind Nat

/-- `TakeBit()` (R100), the single point where a bit leaves the stream. -/
def takeBit (B : Buffer) : Read Bool := do
  let p ← get
  if B.bits ≤ p then
    throw .endOfBuffer
  else
    set (p + 1)
    return bitAt B p

/-- The loop of `ReadBits` (R102): `left` more bits, the next one being bit `i` of the value. -/
def readBitsFrom (B : Buffer) : Nat → Nat → Nat → Read Nat
  | 0, _, v => pure v
  | left + 1, i, v => do
    let b ← takeBit B
    readBitsFrom B left (i + 1) (v ||| (b.toNat <<< i))

/-- `ReadBits(n)` (R102): the width is checked before any bit is consumed (D9). -/
def readBits (B : Buffer) (n : Nat) : Read Nat :=
  if 32 < n then throw .invalidWidth else readBitsFrom B n 0 0

/-- One group of `ReadByteArray` (R104): a final group with 1 to 7 bits left reads those bits (R106), any other group
reads 8 (R105). -/
def readGroup (B : Buffer) (final : Bool) : Read Byte := do
  let p ← get
  let r := remainingBits B p
  let v ← readBits B (if final = true ∧ 1 ≤ r ∧ r ≤ 7 then r else 8)
  return BitVec.ofNat 8 v

/-- `ReadByteArray(count)` (R104); the group with none left after it is the final one. -/
def readByteArray (B : Buffer) : Nat → Read (List Byte)
  | 0 => pure []
  | left + 1 => do
    let b ← readGroup B (left == 0)
    let rest ← readByteArray B left
    return b :: rest

/-- The full bytes of `readBytesForBits` (R107). -/
def readFullBytes (B : Buffer) : Nat → Read (List Byte)
  | 0 => pure []
  | left + 1 => do
    let v ← readBits B 8
    let rest ← readFullBytes B left
    return BitVec.ofNat 8 v :: rest

/-- `readBytesForBits(nbits)` (R107): no clamping at the end of the buffer. -/
def readBytesForBits (B : Buffer) (nbits : Nat) : Read (List Byte) := do
  let full ← readFullBytes B (nbits / 8)
  if nbits % 8 = 0 then
    return full
  else
    let v ← readBits B (nbits % 8)
    return full ++ [BitVec.ofNat 8 v]

/-! ### Shared decoders -/

/-- The group loop of `ReadVarUInt(G, W)` (R132): `left` groups may still be read, the next one is group `j`. -/
def readVarUIntFrom (B : Buffer) (W : Nat) : Nat → Nat → Nat → Read Nat
  | 0, _, _ => throw .malformedVarInt
  | left + 1, j, v => do
    let b ← readBits B 8
    let v' := v ||| ((b &&& 0x7F) <<< (7 * j))
    if b &&& 0x80 = 0 then
      if 2 ^ W ≤ v' then throw .malformedVarInt else return v'
    else
      readVarUIntFrom B W left (j + 1) v'

/-- `ReadVarUInt(G, W)` (R132). -/
def readVarUInt (B : Buffer) (G W : Nat) : Read Nat := readVarUIntFrom B W G 0 0

/-- The word of a little-endian read of `m` bytes (R76, R160, R162); the last byte may be partial (R161). -/
def readLittleEndian (B : Buffer) (m : Nat) : Read Nat := do
  let bs ← readByteArray B m
  return leWordFrom 0 bs

/-- The loop of `readString` (R164). Each round consumes 8 bits or fails, so `BUF_LEN + 1` rounds always end it; with no
round left the buffer is exhausted. -/
def readStringFuel (B : Buffer) : Nat → Read (List Byte)
  | 0 => throw .endOfBuffer
  | fuel + 1 => do
    let c ← readBits B 8
    if c = 0 then
      return []
    else
      let rest ← readStringFuel B fuel
      return BitVec.ofNat 8 c :: rest

/-- `ReadNormal()` (R182): the sign first, then an 11-bit magnitude over 2047 (R183). -/
def readNormal (B : Buffer) : Read SignedMag := do
  let s ← takeBit B
  let m ← readBits B 11
  return { neg := s, mag := ratio m 2047 }

/-! ### The command wrapper (R228) -/

/-- The code of an error kind (R27). -/
def errorCode : ErrorKind → BitVec 3
  | .endOfBuffer => 1
  | .invalidWidth => 2
  | .malformedVarInt => 3
  | .illegalCommand => 4

/-- Error capture (R228), the block's whole exception entry: the record takes the kind, the start position of the failing
command and the detection position, and the bits consumed before it stay consumed (R226). -/
def Block.capture (b : Block) (e : ErrorKind) (start p : Nat) : Block :=
  { b with pos := p, err := errorCode e, errStart := start, errPos := p }

/-- `LOAD(bytes)` (R250), the block's reset and the only way out of the faulted state (R230). -/
def Block.load (bytes : List Byte) : Block :=
  { buf := Buffer.ofBytes bytes, pos := 0, err := 0, errStart := 0, errPos := 0 }

/-- The block's new state together with the one response to the command (R67). -/
def State.answer (s : State) (b : Block) (r : Response) : State :=
  { s with block := some b, responses := s.responses ++ [r] }

/-- The end of a command (R228): its value and the new cursor, or the captured error. -/
def finish (s : State) (b : Block) : EStateM.Result ErrorKind Nat Value → State
  | .ok v p => s.answer { b with pos := p } (.ok v)
  | .error e p => s.answer (b.capture e b.pos p) (.err (errorCode e) b.pos p)

/-- A reading command (R228): refused by the `Faulted` response while the block is faulted (R229), else run from `POS`. -/
def performRead (op : Buffer → Read Value) (s : State) : Host.Outcome State Fault Refusal :=
  match s.block with
  | none => .refused .unloaded
  | some b =>
    if faulted b then
      .next (s.answer b (.faulted b.err b.errStart b.errPos))
    else
      .next (finish s b ((op b.buf).run b.pos))

/-- A command that is answered in the faulted state too (R228, R229): `REMAINING` alone. It cannot fail. -/
def performQuery (value : Block → Value) (s : State) : Host.Outcome State Fault Refusal :=
  match s.block with
  | none => .refused .unloaded
  | some b => .next (s.answer b (.ok (value b)))

/-- The response to a word that spells no operation (R225, R228): the first error wins the record (R229). -/
def performIllegal (s : State) : Host.Outcome State Fault Refusal :=
  match s.block with
  | none => .refused .unloaded
  | some b =>
    .next (s.answer (if faulted b then b else b.capture .illegalCommand b.pos b.pos)
      (.err (errorCode .illegalCommand) b.pos b.pos))

/-- The host performs `LOAD(bytes)`, on an unloaded or a loaded instance; it gives no response and cannot fail (R250). -/
def performLoad (bytes : List Byte) (s : State) : Host.Outcome State Fault Refusal :=
  .next { s with block := some (Block.load bytes) }

/-! ### The host interface (R60, R259, R260) -/

/-- The host's next action, and the state in which it is performed. -/
def nextAction (s : State) : Option (HostAction × State) :=
  match s.pending with
  | [] => none
  | a :: rest => some (a, { s with pending := rest })

/-- The host sends `w` before everything else it will do. -/
def sendFirst (w : Command) (s : State) : State := { s with pending := .command w :: s.pending }

end Sys2Proof.Machine
end

