-- ==== Sys2Proof/Machine/Cursor.lean ====
section
/-! DEFINITION. The cursor primitives (40_cursor.md). -/

namespace Sys2Proof.Machine

/-- NEXTBIT (R101). -/
def execNextBit (s : State) : Host.Outcome State Fault Refusal :=
  performRead (fun B => do return .bit (← takeBit B)) s

/-- READBITS n (R102). -/
def execReadBits (n : Nat) (s : State) : Host.Outcome State Fault Refusal :=
  performRead (fun B => do return .unsigned (← readBits B n)) s

/-- REMAINING (R103): no state changes, and it is answered while the block is faulted (R229). -/
def execRemaining (s : State) : Host.Outcome State Fault Refusal :=
  performQuery (fun b => .natural (remainingBits b.buf b.pos)) s

/-- READBYTEARRAY count (R104). -/
def execReadByteArray (count : Nat) (s : State) : Host.Outcome State Fault Refusal :=
  performRead (fun B => do return .bytes (← readByteArray B count)) s

/-- READBYTESFORBITS nbits (R107). -/
def execReadBytesForBits (nbits : Nat) (s : State) : Host.Outcome State Fault Refusal :=
  performRead (fun B => do return .bytes (← readBytesForBits B nbits)) s

end Sys2Proof.Machine
end

