-- ==== Sys2Proof/Machine/Quantized.lean ====
section
/-! DEFINITION. The quantized decoders (43_quantized.md): every result is exact (R12). -/

namespace Sys2Proof.Machine

/-- `readAngle(n)` (R180): `k·360 / 2^n`, with `2^n` the mathematical power of two (D19). -/
def readAngle (B : Buffer) (n : Nat) : Read SignedMag := do
  let k ← readBits B n
  return { neg := false, mag := ratio (k * 360) (2 ^ n) }

/-- A component of a 3f-normal: read when its presence bit is set, else a positive 0 (R184). -/
def readComponent (B : Buffer) (present : Bool) : Read SignedMag :=
  if present then readNormal B else pure SignedMag.zero

/-- The exact square of z (R184): `1 − t` when `t = x² + y² < 1`, else 0. -/
def zSquare (x y : SignedMag) : Rat :=
  let t := x.mag * x.mag + y.mag * y.mag
  if t < 1 then 1 - t else 0

/-- `read3fNormal` (R184): both presence bits, X, Y, then the sign bit of Z, which is always read (D17). -/
def read3fNormal (B : Buffer) : Read Value := do
  let hasX ← takeBit B
  let hasY ← takeBit B
  let x ← readComponent B hasX
  let y ← readComponent B hasY
  let negZ ← takeBit B
  return .normal3 x y { neg := negZ, sq := zSquare x y }

/-- The integer part of a coord (R186): a 14-bit field plus 1 when present, else 0. -/
def readCoordInt (B : Buffer) (present : Bool) : Read Nat :=
  if present then do return (← readBits B 14) + 1 else pure 0

/-- The fraction numerator of a coord (R186): a 5-bit field when present, else 0. -/
def readCoordFrac (B : Buffer) (present : Bool) : Read Nat :=
  if present then readBits B 5 else pure 0

/-- `readCoord` (R186): no sign bit is read when neither flag is set. -/
def readCoord (B : Buffer) : Read SignedMag := do
  let hasInt ← takeBit B
  let hasFrac ← takeBit B
  if hasInt = false ∧ hasFrac = false then
    return SignedMag.zero
  else
    let sign ← takeBit B
    let ip ← readCoordInt B hasInt
    let fp ← readCoordFrac B hasFrac
    return { neg := sign, mag := (ip : Rat) + ratio fp 32 }

/-- READANGLE n (R180). -/
def execReadAngle (n : Nat) (s : State) : Host.Outcome State Fault Refusal :=
  performRead (fun B => do return .quantized (← readAngle B n)) s

/-- READNORMAL (R182). -/
def execReadNormal (s : State) : Host.Outcome State Fault Refusal :=
  performRead (fun B => do return .quantized (← readNormal B)) s

/-- READ3FNORMAL (R184). -/
def execRead3fNormal (s : State) : Host.Outcome State Fault Refusal :=
  performRead read3fNormal s

/-- READCOORD (R186). -/
def execReadCoord (s : State) : Host.Outcome State Fault Refusal :=
  performRead (fun B => do return .quantized (← readCoord B)) s

end Sys2Proof.Machine
end

