-- ==== Sys2Proof/Machine/Raw.lean ====
section
/-! DEFINITION. The byte-aligned and raw decoders (42_raw.md). No alignment is needed or checked (R46). -/

namespace Sys2Proof.Machine

/-- `readString` (R164), with a round for every byte of the buffer and one that fails. -/
def readString (B : Buffer) : Read (List Byte) := readStringFuel B (B.len + 1)

/-- READLE32 (R160). -/
def execReadLittleEndian32 (s : State) : Host.Outcome State Fault Refusal :=
  performRead (fun B => do return .word32 (BitVec.ofNat 32 (← readLittleEndian B 4))) s

/-- READLE64 (R162). -/
def execReadLittleEndian64 (s : State) : Host.Outcome State Fault Refusal :=
  performRead (fun B => do return .word64 (BitVec.ofNat 64 (← readLittleEndian B 8))) s

/-- READFLOAT (R163): the READLE32 word, unchanged. -/
def execReadFloat (s : State) : Host.Outcome State Fault Refusal :=
  performRead (fun B => do return .floatBits (BitVec.ofNat 32 (← readLittleEndian B 4))) s

/-- READSTRING (R164). -/
def execReadString (s : State) : Host.Outcome State Fault Refusal :=
  performRead (fun B => do return .string (← readString B)) s

end Sys2Proof.Machine
end

