-- ==== Sys2Proof/Machine/VarInt.lean ====
section
/-! DEFINITION. The variable-width integer decoders (41_varint.md). -/

namespace Sys2Proof.Machine

/-- `readBitVar` (R130): the tag is tested in descending mask order (R131). -/
def readBitVar (B : Buffer) : Read Nat := do
  let base ← readBits B 6
  let t := base &&& 0x30
  if t = 0x30 then
    return (base &&& 0x0F) ||| ((← readBits B 28) <<< 4)
  else if t = 0x20 then
    return (base &&& 0x0F) ||| ((← readBits B 8) <<< 4)
  else if t = 0x10 then
    return (base &&& 0x0F) ||| ((← readBits B 4) <<< 4)
  else
    return base

/-- `readFieldPathBitVar` (R139): a prefix of at most four bits selects the width. -/
def readFieldPath (B : Buffer) : Read Nat := do
  if (← takeBit B) then
    readBits B 2
  else if (← takeBit B) then
    readBits B 4
  else if (← takeBit B) then
    readBits B 10
  else if (← takeBit B) then
    readBits B 17
  else
    readBits B 31

/-- READBITVAR (R130). -/
def execReadBitVar (s : State) : Host.Outcome State Fault Refusal :=
  performRead (fun B => do return .unsigned (← readBitVar B)) s

/-- READVARUINT32 (R133). -/
def execReadVarUInt32 (s : State) : Host.Outcome State Fault Refusal :=
  performRead (fun B => do return .unsigned (← readVarUInt B 5 32)) s

/-- READVARUINT64 (R134). -/
def execReadVarUInt64 (s : State) : Host.Outcome State Fault Refusal :=
  performRead (fun B => do return .unsigned (← readVarUInt B 10 64)) s

/-- READVARSINT (R137). -/
def execReadVarSInt (s : State) : Host.Outcome State Fault Refusal :=
  performRead (fun B => do return .signed (unzigzag (← readVarUInt B 5 32))) s

/-- READFPBITVAR (R139). -/
def execReadFieldPathBitVar (s : State) : Host.Outcome State Fault Refusal :=
  performRead (fun B => do return .unsigned (← readFieldPath B)) s

end Sys2Proof.Machine
end

