-- ==== Sys2Proof/Machine/Dispatch.lean ====
section
/-! DEFINITION. The dispatch of a decoded command to its meaning, one arm per constructor. -/

namespace Sys2Proof.Machine

/-- The command wrapper of R228 on a decoded command. -/
def exec (i : Instr) (s : State) : Host.Outcome State Fault Refusal :=
  match i with
  | .nextBit => Sys2Proof.Machine.execNextBit s
  | .readBits n => Sys2Proof.Machine.execReadBits n s
  | .remaining => Sys2Proof.Machine.execRemaining s
  | .readByteArray count => Sys2Proof.Machine.execReadByteArray count s
  | .readBytesForBits nbits => Sys2Proof.Machine.execReadBytesForBits nbits s
  | .readBitVar => Sys2Proof.Machine.execReadBitVar s
  | .readVarUInt32 => Sys2Proof.Machine.execReadVarUInt32 s
  | .readVarUInt64 => Sys2Proof.Machine.execReadVarUInt64 s
  | .readVarSInt => Sys2Proof.Machine.execReadVarSInt s
  | .readFieldPathBitVar => Sys2Proof.Machine.execReadFieldPathBitVar s
  | .readLittleEndian32 => Sys2Proof.Machine.execReadLittleEndian32 s
  | .readLittleEndian64 => Sys2Proof.Machine.execReadLittleEndian64 s
  | .readFloat => Sys2Proof.Machine.execReadFloat s
  | .readString => Sys2Proof.Machine.execReadString s
  | .readAngle n => Sys2Proof.Machine.execReadAngle n s
  | .readNormal => Sys2Proof.Machine.execReadNormal s
  | .read3fNormal => Sys2Proof.Machine.execRead3fNormal s
  | .readCoord => Sys2Proof.Machine.execReadCoord s

end Sys2Proof.Machine
end

