-- ==== Sys2Proof/Machine/Step.lean ====
section
/-! DEFINITION. One step of an instance: the host's next action, performed whole (R49, R60, R228). -/

namespace Sys2Proof.Machine

/-- One host action: `LOAD` (R250), or one command word, decoded and performed (R228). With nothing to do there is no step (R259). -/
def step (s : State) : Host.Outcome State Fault Refusal :=
  match nextAction s with
  | none => .refused .hostIdle
  | some (.load bytes, s') => performLoad bytes s'
  | some (.command w, s') =>
    match decode w with
    | .ok i => exec i s'
    | .error _ => performIllegal s'

/-- `s` with the command word as the host's next action. Command words come from the host and are never read from `BUF`
(R60), so nothing else changes. -/
def State.withFetchWord (s : State) (nbits w : Nat) : State := sendFirst (BitVec.ofNat 32 (w % 2 ^ nbits)) s

end Sys2Proof.Machine
end

