-- ==== Sys2Proof/Machine/Assembler.lean ====
section
/-! DEFINITION. The assembly language of R68: one command a line. A text is a list of characters. -/

namespace Sys2Proof.Machine

/-- Why the assembler refuses a line. The first four are those of R68; a line with no command, an operand that is no
numeral and more than one operand are refused too (log entry 8). -/
inductive AsmError where
  | unknownMnemonic
  | missingOperand
  | unexpectedOperand
  | operandOutOfRange
  | noCommand
  | malformedOperand
  | tooManyOperands
  deriving DecidableEq, Repr

/-- The mnemonic column of R63. -/
def mnemonic : Instr → List Char
  | .nextBit => "NEXTBIT".toList
  | .readBits _ => "READBITS".toList
  | .remaining => "REMAINING".toList
  | .readByteArray _ => "READBYTEARRAY".toList
  | .readBytesForBits _ => "READBYTESFORBITS".toList
  | .readBitVar => "READBITVAR".toList
  | .readVarUInt32 => "READVARUINT32".toList
  | .readVarUInt64 => "READVARUINT64".toList
  | .readVarSInt => "READVARSINT".toList
  | .readFieldPathBitVar => "READFPBITVAR".toList
  | .readLittleEndian32 => "READLE32".toList
  | .readLittleEndian64 => "READLE64".toList
  | .readFloat => "READFLOAT".toList
  | .readString => "READSTRING".toList
  | .readAngle _ => "READANGLE".toList
  | .readNormal => "READNORMAL".toList
  | .read3fNormal => "READ3FNORMAL".toList
  | .readCoord => "READCOORD".toList

/-- Every command, the operand forms with operand 0 (R63). -/
def commands : List Instr :=
  [.nextBit, .readBits 0, .remaining, .readByteArray 0, .readBytesForBits 0, .readBitVar, .readVarUInt32, .readVarUInt64,
    .readVarSInt, .readFieldPathBitVar, .readLittleEndian32, .readLittleEndian64, .readFloat, .readString, .readAngle 0,
    .readNormal, .read3fNormal, .readCoord]

/-- The four operand forms (R62). -/
def takesOperand : Instr → Bool
  | .readBits _ => true
  | .readByteArray _ => true
  | .readBytesForBits _ => true
  | .readAngle _ => true
  | _ => false

/-- The same command with another operand. -/
def withOperand (n : Nat) : Instr → Instr
  | .readBits _ => .readBits n
  | .readByteArray _ => .readByteArray n
  | .readBytesForBits _ => .readBytesForBits n
  | .readAngle _ => .readAngle n
  | i => i

/-- Characters that separate mnemonic and operand. -/
def isSpace (c : Char) : Bool := c = ' ' || c = '\t' || c = '\r' || c = '\n'

/-- A line without its comment: `;` begins one that runs to the end of the line (R68). -/
def stripComment (line : List Char) : List Char := line.takeWhile (fun c => c ≠ ';')

/-- The words of a text; `word` is the current one, reversed. -/
def wordsFrom : List Char → List Char → List (List Char)
  | word, [] => if word = [] then [] else [word.reverse]
  | word, c :: cs =>
    if isSpace c then
      (if word = [] then wordsFrom [] cs else word.reverse :: wordsFrom [] cs)
    else wordsFrom (c :: word) cs

/-- The value of a digit, hexadecimal digits in either case. -/
def digitValue (c : Char) : Option Nat :=
  if '0' ≤ c ∧ c ≤ '9' then some (c.toNat - '0'.toNat)
  else if 'a' ≤ c ∧ c ≤ 'f' then some (c.toNat - 'a'.toNat + 10)
  else if 'A' ≤ c ∧ c ≤ 'F' then some (c.toNat - 'A'.toNat + 10)
  else none

/-- The digits of a numeral, most significant first, after the value read so far. -/
def digitsFrom (base : Nat) : Nat → List Char → Option Nat
  | v, [] => some v
  | v, c :: cs =>
    match digitValue c with
    | none => none
    | some d => if d < base then digitsFrom base (v * base + d) cs else none

/-- A decimal or a `0x`-prefixed hexadecimal numeral, with at least one digit (R68). -/
def numeral : List Char → Option Nat
  | [] => none
  | ['0', 'x'] => none
  | '0' :: 'x' :: ds => digitsFrom 16 0 ds
  | ds => digitsFrom 10 0 ds

/-- The command whose mnemonic is `word`, in either case (R68). -/
def findCommand (word : List Char) : Option Instr :=
  commands.find? (fun i => mnemonic i = word.map Char.toUpper)

/-- The assembler on one line (R68): the word `(OP << 24) | N`, or the reason why the line is refused. A `.word`
line is refused as an unknown mnemonic (DESIGN CHOICE, log entry 8). -/
def assembleLine (line : List Char) : Except AsmError Command :=
  match wordsFrom [] (stripComment line) with
  | [] => .error .noCommand
  | m :: operands =>
    match findCommand m with
    | none => .error .unknownMnemonic
    | some i =>
      if takesOperand i then
        match operands with
        | [] => .error .missingOperand
        | [a] =>
          match numeral a with
          | none => .error .malformedOperand
          | some n => if n ≤ maxOperand then .ok (encode (withOperand n i)) else .error .operandOutOfRange
        | _ => .error .tooManyOperands
      else
        match operands with
        | [] => .ok (encode i)
        | _ => .error .unexpectedOperand

/-- The decimal digits of `n` before those in `acc`, at most `fuel` of them. -/
def decimalFrom : Nat → Nat → List Char → List Char
  | 0, _, acc => acc
  | fuel + 1, n, acc =>
    if n < 10 then Nat.digitChar n :: acc else decimalFrom fuel (n / 10) (Nat.digitChar (n % 10) :: acc)

/-- An operand in decimal; 8 digits hold every 24-bit number. -/
def decimal (n : Nat) : List Char := decimalFrom 8 n []

/-- The `count` lowest hexadecimal digits of `n` before those in `acc`, in capitals. -/
def hexFrom : Nat → Nat → List Char → List Char
  | 0, _, acc => acc
  | count + 1, n, acc => hexFrom count (n / 16) ((Nat.digitChar (n % 16)).toUpper :: acc)

/-- The disassembler (R68): the mnemonic, with its operand in decimal, or `.word 0xXXXXXXXX` for an illegal word. -/
def disassemble (w : Command) : List Char :=
  match decode w with
  | .ok i => if takesOperand i then mnemonic i ++ ' ' :: decimal (operandOf i) else mnemonic i
  | .error _ => ".word 0x".toList ++ hexFrom 8 w.toNat []

end Sys2Proof.Machine
end

