-- ==== Sys2Proof/Machine/Instances.lean ====
section
/-! DEFINITION. Several instances side by side (R234). Each has a state of its own, its buffer included; instances loaded with the same bytes hold equal buffers, which nothing writes (R52). -/

namespace Sys2Proof.Machine

/-- Instance `k` performs its next step; `none` when it has none. The others do not move (R234). -/
def stepInstance (k : Nat) (all : List State) : Option (List State) :=
  match all[k]? with
  | none => none
  | some s =>
    match step s with
    | .next s' => some (all.set k s')
    | .fault _ => none
    | .refused _ => none

/-- The instances step in the order of a schedule (R260). -/
def runSchedule : List Nat → List State → Option (List State)
  | [], all => some all
  | k :: rest, all =>
    match stepInstance k all with
    | none => none
    | some all' => runSchedule rest all'

/-- One instance by itself for `n` steps. -/
def runAlone : Nat → State → Option State
  | 0, s => some s
  | n + 1, s =>
    match step s with
    | .next s' => runAlone n s'
    | .fault _ => none
    | .refused _ => none

end Sys2Proof.Machine
end

