-- ==== Sys2Proof/Machine/Wire.lean ====
section
/-! DEFINITION. The wire formats of Part B (R71 to R83) as functions of the bit stream, without a cursor: what the bits at a position say, and how many they are. The decoders are stated against them. -/

namespace Sys2Proof.Machine

/-- The `n`-bit field at stream bit `p` (R42, R71): `Σ_{i<n} Bit(p+i) · 2^i`. -/
def fieldAt (B : Buffer) (p : Nat) : Nat → Nat
  | 0 => 0
  | n + 1 => fieldAt B p n + (bitAt B (p + n)).toNat * 2 ^ n

/-- `count` bytes in stream order, byte `j` being the 8-bit field at `p + 8·j` (R76, R78, R105). -/
def bytesAt (B : Buffer) (p : Nat) : Nat → List Byte
  | 0 => []
  | count + 1 => bytesAt B p count ++ [BitVec.ofNat 8 (fieldAt B (p + 8 * count) 8)]

/-! ### BitVar (R72) -/

/-- The extension width that a 6-bit base selects by its bits 5:4. -/
def bitVarExtension (base : Nat) : Nat :=
  match base / 16 with
  | 0 => 0
  | 1 => 4
  | 2 => 8
  | _ => 28

/-- The length of the BitVar at `p`: 6, 10, 14 or 34 bits. -/
def bitVarLength (B : Buffer) (p : Nat) : Nat := 6 + bitVarExtension (fieldAt B p 6)

/-- The value of the BitVar at `p`: the low 4 bits of the base, then the extension. -/
def bitVarValue (B : Buffer) (p : Nat) : Nat :=
  fieldAt B p 6 % 16 + fieldAt B (p + 6) (bitVarExtension (fieldAt B p 6)) * 16

/-! ### VarUInt (R73) -/

/-- `cont_j`: the eighth bit of group `j`. -/
def groupContinues (B : Buffer) (p j : Nat) : Bool := bitAt B (p + 8 * j + 7)

/-- The value of the first `g` groups: `Σ_{j<g} data_j · 2^(7·j)`, with `data_j` the low 7 bits of group `j`. -/
def groupsValue (B : Buffer) (p : Nat) : Nat → Nat
  | 0 => 0
  | g + 1 => groupsValue B p g + fieldAt B (p + 8 * g) 7 * 2 ^ (7 * g)

/-- The first `g` groups all have their continuation bit set. -/
def allContinue (B : Buffer) (p g : Nat) : Prop := ∀ j, j < g → groupContinues B p j = true

/-- The VarUInt at `p` ends with its group `g − 1`: it has exactly `g` groups. -/
def endsAfter (B : Buffer) (p g : Nat) : Prop :=
  1 ≤ g ∧ allContinue B p (g - 1) ∧ groupContinues B p (g - 1) = false

/-! ### Field path (R75) -/

/-- The prefix at `p` has `zeros` zero bits and, unless they are four, a 1 after them. -/
def pathPrefix (B : Buffer) (p zeros : Nat) : Prop :=
  zeros ≤ 4 ∧ (∀ j, j < zeros → bitAt B (p + j) = false) ∧ (zeros < 4 → bitAt B (p + zeros) = true)

/-- The number of prefix bits. -/
def pathPrefixLength (zeros : Nat) : Nat := if zeros < 4 then zeros + 1 else 4

/-- The data width the prefix selects. -/
def pathWidth : Nat → Nat
  | 0 => 2
  | 1 => 4
  | 2 => 10
  | 3 => 17
  | _ => 31

/-! ### Normal, 3f-normal and coord (R80 to R82) -/

/-- The normal at `p`: a sign bit, then 11 bits over 2047 (R80, R183). -/
def normalAt (B : Buffer) (p : Nat) : SignedMag :=
  { neg := bitAt B p, mag := (fieldAt B (p + 1) 11 : Rat) / 2047 }

/-- The length of an optional field of `width` bits. -/
def optionalBits (present : Bool) (width : Nat) : Nat := if present then width else 0

/-- A component of a 3f-normal: the normal at `p` when present, else the positive 0 (R184). -/
def componentAt (B : Buffer) (present : Bool) (p : Nat) : SignedMag := if present then normalAt B p else SignedMag.zero

/-- Where the Y component of the 3f-normal at `p` would begin (R81). -/
def normal3Y (B : Buffer) (p : Nat) : Nat := p + 2 + optionalBits (bitAt B p) 12

/-- Where the `negZ` bit of the 3f-normal at `p` stands (R81). -/
def normal3Z (B : Buffer) (p : Nat) : Nat := normal3Y B p + optionalBits (bitAt B (p + 1)) 12

/-- The length of the 3f-normal at `p`: 3, 15 or 27 bits (R81). -/
def normal3Length (B : Buffer) (p : Nat) : Nat := normal3Z B p + 1 - p

/-- The integer field of the coord at `p`, plus 1 when it is present (R82). -/
def coordInt (B : Buffer) (p : Nat) : Nat := if bitAt B p then fieldAt B (p + 3) 14 + 1 else 0

/-- The fraction numerator of the coord at `p` (R82). -/
def coordFrac (B : Buffer) (p : Nat) : Nat :=
  if bitAt B (p + 1) then fieldAt B (p + 3 + optionalBits (bitAt B p) 14) 5 else 0

/-- The length of the coord at `p`: 2, 8, 17 or 22 bits (R82). -/
def coordLength (B : Buffer) (p : Nat) : Nat :=
  2 + optionalBits (bitAt B p || bitAt B (p + 1)) 1 + optionalBits (bitAt B p) 14 + optionalBits (bitAt B (p + 1)) 5

/-- The value of the coord at `p` (R82). -/
def coordAt (B : Buffer) (p : Nat) : SignedMag :=
  if bitAt B p || bitAt B (p + 1) then
    { neg := bitAt B (p + 2), mag := (coordInt B p : Rat) + (coordFrac B p : Rat) / 32 }
  else SignedMag.zero

end Sys2Proof.Machine
end

