-- ==== Sys2Proof/Safety.lean ====
section
/-! DEFINITION. What counts as a safe run: the invariant of a block, the states a command may end in, the bits it may consume and the values it may return. -/

namespace Sys2Proof.Machine

/-- The invariant of a loaded block: the buffer's canonical form, the cursor's bound (R23) and what an error record means
(R26 to R28, R226). -/
structure Block.Inv (b : Block) : Prop where
  /-- The buffer is in its canonical form. -/
  canonical : Memory.wf b.buf.len b.buf.cells = true
  /-- `POS ≤ 8·BUF_LEN` (R23). -/
  bound : b.pos ≤ b.buf.bits
  /-- Codes 5, 6 and 7 are never written (R27). -/
  code : b.err.toNat ≤ 4
  /-- With no failure since `LOAD` the positions hold 0 (R26, R252). -/
  clear : b.err = 0 → b.errStart = 0 ∧ b.errPos = 0
  /-- After a failure `POS = ERR_POS`, at or after `ERR_START` (R28, R226). -/
  record : b.err ≠ 0 → b.errStart ≤ b.errPos ∧ b.errPos = b.pos
  /-- EndOfBuffer is detected at `8·BUF_LEN` (R221). -/
  endOfBuffer : b.err = 1 → b.errPos = b.buf.bits
  /-- InvalidWidth consumes nothing (R222). -/
  invalidWidth : b.err = 2 → b.errStart = b.errPos
  /-- MalformedVarInt is detected after the fifth group (32 bits) or the tenth (64 bits) (R135). -/
  malformed : b.err = 3 → b.errPos = b.errStart + 40 ∨ b.errPos = b.errStart + 80
  /-- IllegalCommand consumes nothing (R226). -/
  illegal : b.err = 4 → b.errStart = b.errPos

/-- The invariant of a state: that of its block, when it is loaded; the unloaded state holds nothing (R32). -/
def State.Inv (s : State) : Prop := ∀ b, s.block = some b → b.Inv

/-- The instance is loaded with block `b` and not faulted, so that a command's own operation runs (R228). -/
def State.Ready (s : State) (b : Block) : Prop := s.block = some b ∧ b.err = 0

/-- The state after a command that succeeds with value `v` and consumes `k` bits: nothing else changes. -/
def State.succeeds (s : State) (b : Block) (k : Nat) (v : Value) : State :=
  { s with block := some { b with pos := b.pos + k }, responses := s.responses ++ [.ok v] }

/-- The state after a command that fails with code `kind` at position `p`: the record is written and nothing else changes. -/
def State.fails (s : State) (b : Block) (kind : BitVec 3) (p : Nat) : State :=
  { s with
    block := some { b with pos := p, err := kind, errStart := b.pos, errPos := p }
    responses := s.responses ++ [.err kind b.pos p] }

/-- The state after a command that gets response `r` and leaves the block as it is. -/
def State.respondsOnly (s : State) (r : Response) : State := { s with responses := s.responses ++ [r] }

/-- The numbers of bits a successful command may consume: the table of R47. -/
def mayConsume : Instr → Nat → Prop
  | .nextBit, k => k = 1
  | .readBits n, k => k = n ∧ n ≤ 32
  | .remaining, k => k = 0
  | .readByteArray count, k => k = 8 * count ∨ (1 ≤ count ∧ 8 * (count - 1) < k ∧ k < 8 * count)
  | .readBytesForBits nbits, k => k = nbits
  | .readBitVar, k => k = 6 ∨ k = 10 ∨ k = 14 ∨ k = 34
  | .readVarUInt32, k => ∃ g, 1 ≤ g ∧ g ≤ 5 ∧ k = 8 * g
  | .readVarUInt64, k => ∃ g, 1 ≤ g ∧ g ≤ 10 ∧ k = 8 * g
  | .readVarSInt, k => ∃ g, 1 ≤ g ∧ g ≤ 5 ∧ k = 8 * g
  | .readFieldPathBitVar, k => k = 3 ∨ k = 6 ∨ k = 13 ∨ k = 21 ∨ k = 35
  | .readLittleEndian32, k => 24 < k ∧ k ≤ 32
  | .readLittleEndian64, k => 56 < k ∧ k ≤ 64
  | .readFloat, k => 24 < k ∧ k ≤ 32
  | .readString, k => ∃ n, k = 8 * (n + 1)
  | .readAngle n, k => k = n ∧ n ≤ 32
  | .readNormal, k => k = 12
  | .read3fNormal, k => k = 3 ∨ k = 15 ∨ k = 27
  | .readCoord, k => k = 2 ∨ k = 8 ∨ k = 17 ∨ k = 22

/-- The values an `Ok` response to a command may carry: the table of R67, with the ranges of the operation rules. -/
def mayReturn : Instr → Buffer → Value → Prop
  | .nextBit, _, v => ∃ b, v = .bit b
  | .readBits n, _, v => ∃ x, v = .unsigned x ∧ x < 2 ^ n
  | .remaining, B, v => ∃ x, v = .natural x ∧ x ≤ B.bits
  | .readByteArray count, _, v => ∃ bs, v = .bytes bs ∧ bs.length = count
  | .readBytesForBits nbits, _, v => ∃ bs, v = .bytes bs ∧ bs.length = (nbits + 7) / 8
  | .readBitVar, _, v => ∃ x, v = .unsigned x ∧ x < 2 ^ 32
  | .readVarUInt32, _, v => ∃ x, v = .unsigned x ∧ x < 2 ^ 32
  | .readVarUInt64, _, v => ∃ x, v = .unsigned x ∧ x < 2 ^ 64
  | .readVarSInt, _, v => ∃ x, v = .signed x ∧ -2 ^ 31 ≤ x ∧ x ≤ 2 ^ 31 - 1
  | .readFieldPathBitVar, _, v => ∃ x, v = .unsigned x ∧ x < 2 ^ 31
  | .readLittleEndian32, _, v => ∃ w, v = .word32 w
  | .readLittleEndian64, _, v => ∃ w, v = .word64 w
  | .readFloat, _, v => ∃ w, v = .floatBits w
  | .readString, _, v => ∃ bs, v = .string bs ∧ ∀ c ∈ bs, c ≠ 0
  | .readAngle _, _, v => ∃ q, v = .quantized q ∧ q.neg = false ∧ 0 ≤ q.mag ∧ q.mag < 360
  | .readNormal, _, v => ∃ q, v = .quantized q ∧ 0 ≤ q.mag ∧ q.mag ≤ 1
  | .read3fNormal, _, v => ∃ x y z, v = .normal3 x y z ∧ 0 ≤ x.mag ∧ x.mag ≤ 1 ∧ 0 ≤ y.mag ∧ y.mag ≤ 1 ∧ 0 ≤ z.sq ∧ z.sq ≤ 1
  | .readCoord, _, v => ∃ q, v = .quantized q ∧ 0 ≤ q.mag ∧ q.mag ≤ 16384 + 31 / 32

/-- The error codes a decoded command may fail with (R220). -/
def mayFail : Instr → BitVec 3 → Prop
  | .nextBit, e => e = 1
  | .readBits _, e => e = 1 ∨ e = 2
  | .remaining, _ => False
  | .readByteArray _, e => e = 1
  | .readBytesForBits _, e => e = 1
  | .readBitVar, e => e = 1
  | .readVarUInt32, e => e = 1 ∨ e = 3
  | .readVarUInt64, e => e = 1 ∨ e = 3
  | .readVarSInt, e => e = 1 ∨ e = 3
  | .readFieldPathBitVar, e => e = 1
  | .readLittleEndian32, e => e = 1
  | .readLittleEndian64, e => e = 1
  | .readFloat, e => e = 1
  | .readString, e => e = 1
  | .readAngle _, e => e = 1 ∨ e = 2
  | .readNormal, e => e = 1
  | .read3fNormal, e => e = 1
  | .readCoord, e => e = 1

/-! ### The clauses that instructions of one shape share -/

/-- What a VarUInt command of `G` groups does (R132 to R135, R137): with exactly `g` groups it succeeds, its top group's data
being below `top` when there are `G` of them; it fails with MalformedVarInt when they are not, or when all `G` groups
continue; it fails with EndOfBuffer when the buffer ends inside or before a group that would have been read. -/
def VarUIntClauses (i : Instr) (G top : Nat) (result : Nat → Value) : Prop :=
  ∀ (s : State) (b : Block), s.Ready b → b.pos ≤ b.buf.bits →
    (∀ g, g ≤ G → endsAfter b.buf b.pos g → b.pos + 8 * g ≤ b.buf.bits →
      (g = G → fieldAt b.buf (b.pos + 8 * (G - 1)) 7 < top) →
      exec i s = .next (s.succeeds b (8 * g) (result (groupsValue b.buf b.pos g)))) ∧
    (endsAfter b.buf b.pos G → b.pos + 8 * G ≤ b.buf.bits → top ≤ fieldAt b.buf (b.pos + 8 * (G - 1)) 7 →
      exec i s = .next (s.fails b 3 (b.pos + 8 * G))) ∧
    (allContinue b.buf b.pos G → b.pos + 8 * G ≤ b.buf.bits → exec i s = .next (s.fails b 3 (b.pos + 8 * G))) ∧
    (∀ g, g < G → allContinue b.buf b.pos g → b.pos + 8 * g ≤ b.buf.bits → b.buf.bits < b.pos + 8 * g + 8 →
      exec i s = .next (s.fails b 1 b.buf.bits))

/-- What a little-endian command of `m` bytes does (R160 to R163): the word is the field of all its bits, or of the bits that
remain when they are fewer but reach into the last byte; with no bit for the last byte it fails with EndOfBuffer. -/
def LittleEndianClauses (i : Instr) (m : Nat) (result : Nat → Value) : Prop :=
  ∀ (s : State) (b : Block), s.Ready b → b.pos ≤ b.buf.bits →
    (b.pos + 8 * m ≤ b.buf.bits →
      exec i s = .next (s.succeeds b (8 * m) (result (fieldAt b.buf b.pos (8 * m))))) ∧
    (b.pos + 8 * (m - 1) < b.buf.bits → b.buf.bits < b.pos + 8 * m →
      exec i s = .next (s.succeeds b (b.buf.bits - b.pos) (result (fieldAt b.buf b.pos (b.buf.bits - b.pos))))) ∧
    (b.buf.bits ≤ b.pos + 8 * (m - 1) → exec i s = .next (s.fails b 1 b.buf.bits))

/-- The four zero-size reads of R108. -/
def zeroSizeRead : Instr → Bool
  | .readBits n => decide (n = 0)
  | .readAngle n => decide (n = 0)
  | .readByteArray count => decide (count = 0)
  | .readBytesForBits nbits => decide (nbits = 0)
  | _ => false

/-- The words that spell a command (R64): an operand form with any `N`, or an operand-less opcode with `N = 0`. -/
def legalWord (w : Command) : Prop :=
  w.toNat / 2 ^ 24 ∈ [0x02, 0x04, 0x05, 0x30] ∨
    (w.toNat / 2 ^ 24 ∈ [0x01, 0x03, 0x10, 0x11, 0x12, 0x13, 0x14, 0x20, 0x21, 0x22, 0x23, 0x31, 0x32, 0x33] ∧
      w.toNat % 2 ^ 24 = 0)

/-- The commands that consume at least one bit or fail for want of it: all but REMAINING, the zero-size reads of R108 and the
widths that InvalidWidth refuses (R255). -/
def needsABit : Instr → Bool
  | .remaining => false
  | .readBits n => decide (1 ≤ n ∧ n ≤ 32)
  | .readAngle n => decide (1 ≤ n ∧ n ≤ 32)
  | .readByteArray count => decide (1 ≤ count)
  | .readBytesForBits nbits => decide (1 ≤ nbits)
  | _ => true

end Sys2Proof.Machine
end

