-- ==== Sys2Proof/Certificates/Slice0/Obligations.lean ====
section
/-! DEFINITION. The statements about the BitReader, for the provers. Each docstring names the rules of the spec it formalises. -/

open Sys2Proof Sys2Proof.Machine

/-! ### The command interface -/

/-- R61 to R64: the decoder reads back every command the encoder writes, with every operand the field `N` admits. -/
def Obligations.DecodeOfEncodeIsTheCommand : Prop :=
  ∀ i : Instr, i.wf = true → decode (encode i) = .ok i

/-- R64: a word that decodes spells exactly one command, and that command's encoding is the word. -/
def Obligations.EncodeOfDecodeIsTheWord : Prop :=
  ∀ (w : Command) (i : Instr), decode w = .ok i → i.wf = true ∧ encode i = w

/-- R64: a legal word is the command of its fields `OP = w[31:24]` and `N = w[23:0]`, every other word is illegal. -/
def Obligations.LegalWordsAreThoseOfTheOpcodeMap : Prop :=
  ∀ w : Command,
    (legalWord w → ∃ i, decode w = .ok i ∧ (opcode i).toNat = w.toNat / 2 ^ 24 ∧ operandOf i = w.toNat % 2 ^ 24) ∧
      (¬ legalWord w → ∃ e, decode w = .error e)

/-- Words of 95_test_vectors.md, one or more a family, and what they spell. -/
def Obligations.WordsOfTheTestVectorsDecode : Prop :=
  decode 0x01000000 = .ok .nextBit ∧ decode 0x02000020 = .ok (.readBits 32) ∧
    decode 0x04FFFFFF = .ok (.readByteArray 16777215) ∧ decode 0x0500000C = .ok (.readBytesForBits 12) ∧
    decode 0x10000000 = .ok .readBitVar ∧ decode 0x13000000 = .ok .readVarSInt ∧
    decode 0x20000000 = .ok .readLittleEndian32 ∧ decode 0x23000000 = .ok .readString ∧
    decode 0x30000008 = .ok (.readAngle 8) ∧ decode 0x33000000 = .ok .readCoord ∧
    decode 0x00000000 = .error (.reservedOpcode 0) ∧ decode 0x01000001 = .error (.reservedOperandBits 1 1)

/-- R60, R228: a command word that decodes is performed as its command, once the host's script has moved past it; placing a
word by `withFetchWord` runs exactly that command. -/
def Obligations.StepPerformsTheDecodedCommand : Prop :=
  ∀ (s : State) (w : Command) (i : Instr), decode w = .ok i →
    (∀ rest, s.pending = .command w :: rest → step s = exec i { s with pending := rest }) ∧
      step (s.withFetchWord 32 w.toNat) = exec i s

/-- R225, R228, R229: a word that spells no operation raises IllegalCommand at `POS`; a faulted block keeps its record. -/
def Obligations.IllegalWordRaisesIllegalCommand : Prop :=
  ∀ (s : State) (w : Command) (rest : List HostAction) (e : Illegal) (b : Block),
    s.pending = .command w :: rest → decode w = .error e → s.block = some b →
      (b.err = 0 → step s = .next ({ s with pending := rest }.fails b 4 b.pos)) ∧
        (b.err ≠ 0 → step s = .next ({ s with pending := rest }.respondsOnly (.err 4 b.pos b.pos)))

/-- R32, R254: before the first `LOAD` every command word, legal or not, is refused. -/
def Obligations.UnloadedBlockRefusesEveryWord : Prop :=
  ∀ (s : State) (w : Command) (rest : List HostAction),
    s.block = none → s.pending = .command w :: rest → step s = .refused .unloaded

/-- The model's choice (log entry 5) on R259: with nothing left for the host to do there is no step. -/
def Obligations.IdleHostMeansNoStep : Prop :=
  ∀ s : State, s.pending = [] → step s = .refused .hostIdle

/-! ### Reset and the error record -/

/-- R250 to R252, with R8 and R11 for what the loaded buffer reads as: `LOAD` gives no response, replaces the whole block, and
clears the cursor and the error record. -/
def Obligations.LoadBindsTheBytesAndResets : Prop :=
  ∀ (s : State) (bytes : List Byte) (rest : List HostAction), s.pending = .load bytes :: rest →
    ∃ b : Block, step s = .next { s with block := some b, pending := rest } ∧
      b.pos = 0 ∧ b.err = 0 ∧ b.errStart = 0 ∧ b.errPos = 0 ∧ b.buf.len = bytes.length ∧
      (∀ a (h : a < bytes.length), memRead b.buf a = bytes[a]) ∧
      ∀ p (h : p / 8 < bytes.length), bitAt b.buf p = (bytes[p / 8]).getLsbD (p % 8)

/-- The canonical form of the buffer's memory (log entry 3): two canonical memories that read the same are the same. -/
def Obligations.CanonicalBuffersThatReadAlikeAreEqual : Prop :=
  ∀ (len : Nat) (m m' : Memory), Memory.wf len m = true → Memory.wf len m' = true →
    (∀ a, a < len → Memory.read m a = Memory.read m' a) → m = m'

/-- R251, R252 and the empty buffer of log entry 1: the reset state meets the invariant. -/
def Obligations.ResetStateMeetsTheInvariant : Prop := State.reset.Inv

/-- R23, R26 to R28, R135, R221, R222, R226: every step, a `LOAD` or any word, keeps the invariant. -/
def Obligations.EveryStepKeepsTheInvariant : Prop :=
  ∀ s t : State, s.Inv → step s = .next t → t.Inv

/-- R21, R23, R67: a command gives exactly one response, writes no byte of the buffer and never moves the cursor back. -/
def Obligations.EveryCommandAnswersOnceAndOnlyMovesForward : Prop :=
  ∀ (s t : State) (w : Command) (rest : List HostAction) (b : Block), s.pending = .command w :: rest →
    s.block = some b → b.pos ≤ b.buf.bits → step s = .next t →
      ∃ b' r, t = { block := some b', pending := rest, responses := s.responses ++ [r] } ∧
        b'.buf = b.buf ∧ b.pos ≤ b'.pos ∧ b'.pos ≤ b.buf.bits

/-- R228 with the tables of R47, R67 and R220: a command on a block that is not faulted always completes, either with a value
of its type and a number of bits of its list consumed, the error record untouched, or with an error it may raise, detected
where R226 says and captured in the record. -/
def Obligations.EveryCommandSucceedsOrIsCaptured : Prop :=
  ∀ (i : Instr) (s : State) (b : Block), s.Ready b → b.pos ≤ b.buf.bits →
    (∃ k v, mayConsume i k ∧ mayReturn i b.buf v ∧ b.pos + k ≤ b.buf.bits ∧ exec i s = .next (s.succeeds b k v)) ∨
      (∃ e p, mayFail i e ∧ b.pos ≤ p ∧ p ≤ b.buf.bits ∧ (e = 1 → p = b.buf.bits) ∧ (e = 2 → p = b.pos) ∧
        (e = 3 → p = b.pos + 40 ∨ p = b.pos + 80) ∧ exec i s = .next (s.fails b e p))

/-- R229: while faulted, REMAINING is answered, an illegal word is reported, every other command gets the stored record, and
nothing changes. -/
def Obligations.FaultedBlockAnswersOnlyRemaining : Prop :=
  ∀ (s : State) (w : Command) (rest : List HostAction) (b : Block),
    s.pending = .command w :: rest → s.block = some b → b.err ≠ 0 →
      step s = .next ({ s with pending := rest }.respondsOnly
        (match decode w with
          | .ok i =>
            if i = Instr.remaining then .ok (.natural (b.buf.bits - b.pos)) else .faulted b.err b.errStart b.errPos
          | .error _ => .err 4 b.pos b.pos))

/-- R229, R230: through any number of command words a faulted block stays exactly as it is; only `LOAD` leaves the state. -/
def Obligations.ErrorRecordStaysUntilLoad : Prop :=
  ∀ (n : Nat) (s t : State) (b : Block), s.block = some b → b.err ≠ 0 →
    (∀ a ∈ s.pending.take n, ∃ w, a = .command w) → core.run n s = .next t → t.block = some b

/-- R48, R110: the response to a command and the new cursor depend on the buffer, the cursor and the operand alone. -/
def Obligations.ResponseDependsOnBufferAndCursorAlone : Prop :=
  ∀ (i : Instr) (s s' : State) (b b' : Block), s.Ready b → s'.Ready b' → b.buf = b'.buf → b.pos = b'.pos →
    ∃ r c c', exec i s = .next { s with block := some c, responses := s.responses ++ [r] } ∧
      exec i s' = .next { s' with block := some c', responses := s'.responses ++ [r] } ∧
      c.buf = c'.buf ∧ c.pos = c'.pos ∧ c.err = c'.err

/-- R52, R234, R260: in any interleaving each instance ends where it would have ended by itself. -/
def Obligations.InterleavedInstancesRunAsAlone : Prop :=
  ∀ (schedule : List Nat) (all all' : List State), runSchedule schedule all = some all' →
    ∀ (k : Nat) (s : State), all[k]? = some s →
      ∃ s', all'[k]? = some s' ∧ runAlone (schedule.count k) s = some s'

/-- R255: on an empty buffer REMAINING is 0, every command that needs a bit raises EndOfBuffer at 0, and the zero-size reads
succeed. -/
def Obligations.EmptyBufferEndsAtOnce : Prop :=
  ∀ (i : Instr) (s : State), s.block = some (Block.load []) →
    exec .remaining s = .next (s.respondsOnly (.ok (.natural 0))) ∧
      (needsABit i = true → exec i s = .next (s.fails (Block.load []) 1 0)) ∧
      (zeroSizeRead i = true → ∃ v, exec i s = .next (s.succeeds (Block.load []) 0 v))

/-! ### Cursor primitives -/

/-- R101. -/
def Obligations.NextBitReturnsTheBitAtTheCursor : Prop :=
  decode 0x01000000 = .ok .nextBit ∧
    ∀ (s : State) (b : Block), s.Ready b → b.pos ≤ b.buf.bits →
      (b.pos < b.buf.bits → exec .nextBit s = .next (s.succeeds b 1 (.bit (bitAt b.buf b.pos)))) ∧
        (b.pos = b.buf.bits → exec .nextBit s = .next (s.fails b 1 b.pos))

/-- R102, with the field of R42. -/
def Obligations.ReadBitsReturnsTheField : Prop :=
  (∀ n, n ≤ maxOperand → decode (BitVec.ofNat 32 (0x02000000 + n)) = .ok (.readBits n)) ∧
    ∀ (n : Nat) (s : State) (b : Block), s.Ready b → b.pos ≤ b.buf.bits →
      (n ≤ 32 → b.pos + n ≤ b.buf.bits → fieldAt b.buf b.pos n < 2 ^ n ∧
        exec (.readBits n) s = .next (s.succeeds b n (.unsigned (fieldAt b.buf b.pos n)))) ∧
      (n ≤ 32 → b.buf.bits < b.pos + n → exec (.readBits n) s = .next (s.fails b 1 b.buf.bits)) ∧
      (32 < n → exec (.readBits n) s = .next (s.fails b 2 b.pos))

/-- R103, R229: faulted or not, and no state changes. -/
def Obligations.RemainingIsExactAndChangesNothing : Prop :=
  decode 0x03000000 = .ok .remaining ∧
    ∀ (s : State) (b : Block), s.block = some b →
      exec .remaining s = .next (s.respondsOnly (.ok (.natural (8 * b.buf.len - b.pos))))

/-- R104 to R106: full groups, the partial final group, and the groups that lack bits. -/
def Obligations.ReadByteArrayReadsGroupsAndAPartialLast : Prop :=
  (∀ n, n ≤ maxOperand → decode (BitVec.ofNat 32 (0x04000000 + n)) = .ok (.readByteArray n)) ∧
    ∀ (count : Nat) (s : State) (b : Block), s.Ready b → b.pos ≤ b.buf.bits →
      (b.pos + 8 * count ≤ b.buf.bits →
        exec (.readByteArray count) s = .next (s.succeeds b (8 * count) (.bytes (bytesAt b.buf b.pos count)))) ∧
      (1 ≤ count → b.pos + 8 * (count - 1) < b.buf.bits → b.buf.bits < b.pos + 8 * count →
        exec (.readByteArray count) s = .next (s.succeeds b (b.buf.bits - b.pos)
          (.bytes (bytesAt b.buf b.pos (count - 1) ++
            [BitVec.ofNat 8 (fieldAt b.buf (b.pos + 8 * (count - 1)) (b.buf.bits - (b.pos + 8 * (count - 1))))])))) ∧
      (1 ≤ count → b.buf.bits ≤ b.pos + 8 * (count - 1) →
        exec (.readByteArray count) s = .next (s.fails b 1 b.buf.bits))

/-- R107: full bytes, a last byte of `nbits mod 8` bits, and no clamping. -/
def Obligations.ReadBytesForBitsReadsExactlyItsBits : Prop :=
  (∀ n, n ≤ maxOperand → decode (BitVec.ofNat 32 (0x05000000 + n)) = .ok (.readBytesForBits n)) ∧
    ∀ (nbits : Nat) (s : State) (b : Block), s.Ready b → b.pos ≤ b.buf.bits →
      (b.pos + nbits ≤ b.buf.bits →
        exec (.readBytesForBits nbits) s = .next (s.succeeds b nbits
          (.bytes (bytesAt b.buf b.pos (nbits / 8) ++
            (if nbits % 8 = 0 then []
              else [BitVec.ofNat 8 (fieldAt b.buf (b.pos + 8 * (nbits / 8)) (nbits % 8))]))))) ∧
      (b.buf.bits < b.pos + nbits → exec (.readBytesForBits nbits) s = .next (s.fails b 1 b.buf.bits))

/-- R108: the four zero-size reads succeed on every block that is not faulted, an exhausted one too. -/
def Obligations.ZeroSizeReadsConsumeNothing : Prop :=
  ∀ (s : State) (b : Block), s.Ready b →
    exec (.readBits 0) s = .next (s.succeeds b 0 (.unsigned 0)) ∧
      exec (.readAngle 0) s = .next (s.succeeds b 0 (.quantized { neg := false, mag := 0 })) ∧
      exec (.readByteArray 0) s = .next (s.succeeds b 0 (.bytes [])) ∧
      exec (.readBytesForBits 0) s = .next (s.succeeds b 0 (.bytes []))

/-- R45: `readBits(a)` then `readBits(c)` reads what `readBits(a + c)` reads, the first value lowest. -/
def Obligations.ReadsOfMixedWidthCompose : Prop :=
  ∀ (a c : Nat) (s : State) (b : Block), s.Ready b → a + c ≤ 32 → b.pos + (a + c) ≤ b.buf.bits →
    ∃ v1 v2, exec (.readBits a) s = .next (s.succeeds b a (.unsigned v1)) ∧
      exec (.readBits c) (s.succeeds b a (.unsigned v1)) =
        .next ((s.succeeds b a (.unsigned v1)).succeeds { b with pos := b.pos + a } c (.unsigned v2)) ∧
      exec (.readBits (a + c)) s = .next (s.succeeds b (a + c) (.unsigned (v1 + v2 * 2 ^ a)))

/-! ### Variable-width integers -/

/-- R130, R131 with the format of R72. -/
def Obligations.ReadBitVarReadsTheTaggedValue : Prop :=
  decode 0x10000000 = .ok .readBitVar ∧
    ∀ (s : State) (b : Block), s.Ready b → b.pos ≤ b.buf.bits →
      (b.pos + bitVarLength b.buf b.pos ≤ b.buf.bits → bitVarValue b.buf b.pos < 2 ^ 32 ∧
        exec .readBitVar s = .next (s.succeeds b (bitVarLength b.buf b.pos) (.unsigned (bitVarValue b.buf b.pos)))) ∧
      (b.buf.bits < b.pos + bitVarLength b.buf b.pos → exec .readBitVar s = .next (s.fails b 1 b.buf.bits))

/-- R133, with R132, R135 and R136: redundant groups are accepted, since any number of groups up to 5 is. -/
def Obligations.ReadVarUInt32ReadsUpToFiveGroups : Prop :=
  decode 0x11000000 = .ok .readVarUInt32 ∧ VarUIntClauses .readVarUInt32 5 16 .unsigned

/-- R134, with R132, R135 and R136. -/
def Obligations.ReadVarUInt64ReadsUpToTenGroups : Prop :=
  decode 0x12000000 = .ok .readVarUInt64 ∧ VarUIntClauses .readVarUInt64 10 2 .unsigned

/-- R137 with the law of R138: the VarUInt32 `u` gives `u/2` when it is even and `−(u+1)/2` when it is odd. -/
def Obligations.ReadVarSIntDecodesZigZag : Prop :=
  decode 0x13000000 = .ok .readVarSInt ∧
    VarUIntClauses .readVarSInt 5 16
      (fun u => .signed (if u % 2 = 0 then ((u / 2 : Nat) : Int) else -(((u + 1) / 2 : Nat) : Int)))

/-- R138: zig-zag decoding is a bijection onto the signed 32-bit integers, with the inverse the rule gives. -/
def Obligations.ZigZagIsABijection : Prop :=
  (∀ u : Nat, u < 2 ^ 32 →
    unzigzag u = (if u % 2 = 0 then ((u / 2 : Nat) : Int) else -(((u + 1) / 2 : Nat) : Int)) ∧
      -2 ^ 31 ≤ unzigzag u ∧ unzigzag u < 2 ^ 31) ∧
    (∀ u u' : Nat, u < 2 ^ 32 → u' < 2 ^ 32 → unzigzag u = unzigzag u' → u = u') ∧
    ∀ x : Int, -2 ^ 31 ≤ x → x < 2 ^ 31 → unzigzag (if 0 ≤ x then 2 * x else -2 * x - 1).toNat = x

/-- R139 with the format of R75: the number of leading zero bits selects the width. -/
def Obligations.ReadFieldPathReadsTheSelectedWidth : Prop :=
  decode 0x14000000 = .ok .readFieldPathBitVar ∧
    ∀ (zeros : Nat) (s : State) (b : Block), s.Ready b → b.pos ≤ b.buf.bits → pathPrefix b.buf b.pos zeros →
      (b.pos + (pathPrefixLength zeros + pathWidth zeros) ≤ b.buf.bits →
        exec .readFieldPathBitVar s = .next (s.succeeds b (pathPrefixLength zeros + pathWidth zeros)
          (.unsigned (fieldAt b.buf (b.pos + pathPrefixLength zeros) (pathWidth zeros))))) ∧
      (b.buf.bits < b.pos + (pathPrefixLength zeros + pathWidth zeros) →
        exec .readFieldPathBitVar s = .next (s.fails b 1 b.buf.bits))

/-! ### Byte-aligned and raw decoders -/

/-- R160, R161; the signed reading is two's complement. -/
def Obligations.ReadLittleEndian32ReadsTheWord : Prop :=
  decode 0x20000000 = .ok .readLittleEndian32 ∧
    LittleEndianClauses .readLittleEndian32 4 (fun v => .word32 (BitVec.ofNat 32 v)) ∧
    ∀ w : BitVec 32, (Value.word32 w).signedReading = some w.toInt

/-- R162, R161; the signed reading is two's complement. -/
def Obligations.ReadLittleEndian64ReadsTheWord : Prop :=
  decode 0x21000000 = .ok .readLittleEndian64 ∧
    LittleEndianClauses .readLittleEndian64 8 (fun v => .word64 (BitVec.ofNat 64 v)) ∧
    ∀ w : BitVec 64, (Value.word64 w).signedReading = some w.toInt

/-- R163: the pattern is the little-endian word, unchanged. -/
def Obligations.ReadFloatReturnsThePatternUnchanged : Prop :=
  decode 0x22000000 = .ok .readFloat ∧ LittleEndianClauses .readFloat 4 (fun v => .floatBits (BitVec.ofNat 32 v))

/-- R43, R162: with all their bits present, the little-endian reads give what `READBITS 32` gives, once or twice. -/
def Obligations.LittleEndianReadsAgreeWithReadBits : Prop :=
  ∀ (s : State) (b : Block), s.Ready b →
    (b.pos + 32 ≤ b.buf.bits →
      ∃ v, v < 2 ^ 32 ∧ exec (.readBits 32) s = .next (s.succeeds b 32 (.unsigned v)) ∧
        exec .readLittleEndian32 s = .next (s.succeeds b 32 (.word32 (BitVec.ofNat 32 v)))) ∧
    (b.pos + 64 ≤ b.buf.bits →
      ∃ lo hi, lo < 2 ^ 32 ∧ hi < 2 ^ 32 ∧ exec (.readBits 32) s = .next (s.succeeds b 32 (.unsigned lo)) ∧
        exec (.readBits 32) (s.succeeds b 32 (.unsigned lo)) =
          .next ((s.succeeds b 32 (.unsigned lo)).succeeds { b with pos := b.pos + 32 } 32 (.unsigned hi)) ∧
        exec .readLittleEndian64 s = .next (s.succeeds b 64 (.word64 (BitVec.ofNat 64 (lo + hi * 2 ^ 32)))))

/-- R164 with the format of R78: the `k` non-zero bytes before the first zero byte, which is consumed. -/
def Obligations.ReadStringReadsToTheTerminator : Prop :=
  decode 0x23000000 = .ok .readString ∧
    ∀ (k : Nat) (s : State) (b : Block), s.Ready b →
      (∀ j, j < k → fieldAt b.buf (b.pos + 8 * j) 8 ≠ 0) →
      (b.pos + 8 * (k + 1) ≤ b.buf.bits → fieldAt b.buf (b.pos + 8 * k) 8 = 0 →
        exec .readString s = .next (s.succeeds b (8 * (k + 1)) (.string (bytesAt b.buf b.pos k)))) ∧
      (b.pos + 8 * k ≤ b.buf.bits → b.buf.bits < b.pos + 8 * (k + 1) →
        exec .readString s = .next (s.fails b 1 b.buf.bits))

/-! ### Quantized decoders -/

/-- R180: the exact angle, with `2^n` the mathematical power of two. -/
def Obligations.ReadAngleScalesToDegrees : Prop :=
  (∀ n, n ≤ maxOperand → decode (BitVec.ofNat 32 (0x30000000 + n)) = .ok (.readAngle n)) ∧
    ∀ (n : Nat) (s : State) (b : Block), s.Ready b → b.pos ≤ b.buf.bits →
      (n ≤ 32 → b.pos + n ≤ b.buf.bits →
        exec (.readAngle n) s = .next (s.succeeds b n
          (.quantized { neg := false, mag := (fieldAt b.buf b.pos n : Rat) * 360 / 2 ^ n }))) ∧
      (n ≤ 32 → b.buf.bits < b.pos + n → exec (.readAngle n) s = .next (s.fails b 1 b.buf.bits)) ∧
      (32 < n → exec (.readAngle n) s = .next (s.fails b 2 b.pos))

/-- R181: with `k` the field of width `n` that READANGLE reads, its answer is `k·45 / 2^(n−3)` for `n ≥ 3` and `k·360 / 2^n`
below, a multiple of `360 / 2^n` from 0 to below 360, and monotone in `k`. -/
def Obligations.AnglesAreMonotoneMultiplesBelow360 : Prop :=
  ∀ (n : Nat) (s : State) (b : Block), n ≤ 32 → s.Ready b → b.pos + n ≤ b.buf.bits →
    ∃ q : SignedMag, exec (.readAngle n) s = .next (s.succeeds b n (.quantized q)) ∧ q.neg = false ∧
      q.mag = (if 3 ≤ n then (fieldAt b.buf b.pos n : Rat) * 45 / 2 ^ (n - 3)
        else (fieldAt b.buf b.pos n : Rat) * 360 / 2 ^ n) ∧
      (∃ m : Nat, q.mag = m * (360 / 2 ^ n)) ∧ 0 ≤ q.mag ∧ q.mag < 360 ∧
      ∀ (s' : State) (b' : Block) (q' : SignedMag), s'.Ready b' → b'.pos + n ≤ b'.buf.bits →
        exec (.readAngle n) s' = .next (s'.succeeds b' n (.quantized q')) →
          fieldAt b.buf b.pos n < fieldAt b'.buf b'.pos n → q.mag < q'.mag

/-- R182, R183: the sign, then 11 bits over 2047. -/
def Obligations.ReadNormalReadsSignAndMagnitude : Prop :=
  decode 0x31000000 = .ok .readNormal ∧
    ∀ (s : State) (b : Block), s.Ready b → b.pos ≤ b.buf.bits →
      (b.pos + 12 ≤ b.buf.bits → exec .readNormal s = .next (s.succeeds b 12
        (.quantized { neg := bitAt b.buf b.pos, mag := (fieldAt b.buf (b.pos + 1) 11 : Rat) / 2047 }))) ∧
      (b.buf.bits < b.pos + 12 → exec .readNormal s = .next (s.fails b 1 b.buf.bits))

/-- R184 with the format of R81: the components that are present, and the exact square of z. -/
def Obligations.Read3fNormalRebuildsZ : Prop :=
  decode 0x32000000 = .ok .read3fNormal ∧
    ∀ (s : State) (b : Block) (x y : SignedMag), s.Ready b → b.pos ≤ b.buf.bits →
      x = componentAt b.buf (bitAt b.buf b.pos) (b.pos + 2) →
      y = componentAt b.buf (bitAt b.buf (b.pos + 1)) (normal3Y b.buf b.pos) →
      (b.pos + normal3Length b.buf b.pos ≤ b.buf.bits →
        exec .read3fNormal s = .next (s.succeeds b (normal3Length b.buf b.pos)
          (.normal3 x y { neg := bitAt b.buf (normal3Z b.buf b.pos)
                          sq := if x.mag ^ 2 + y.mag ^ 2 < 1 then 1 - (x.mag ^ 2 + y.mag ^ 2) else 0 }))) ∧
      (b.buf.bits < b.pos + normal3Length b.buf b.pos → exec .read3fNormal s = .next (s.fails b 1 b.buf.bits))

/-- R185: an answered 3f-normal has length 1, or z = 0 and a squared length from 1 to 2. -/
def Obligations.Normals3HaveUnitLengthOrNoZ : Prop :=
  ∀ (s : State) (b : Block) (k : Nat) (x y : SignedMag) (z : SignedRoot), s.Ready b →
    exec .read3fNormal s = .next (s.succeeds b k (.normal3 x y z)) →
      (x.mag ^ 2 + y.mag ^ 2 < 1 → x.mag ^ 2 + y.mag ^ 2 + z.sq = 1) ∧
        (1 ≤ x.mag ^ 2 + y.mag ^ 2 → z.sq = 0 ∧ x.mag ^ 2 + y.mag ^ 2 ≤ 2)

/-- R186 with the format of R82. -/
def Obligations.ReadCoordAddsItsParts : Prop :=
  decode 0x33000000 = .ok .readCoord ∧
    ∀ (s : State) (b : Block), s.Ready b → b.pos ≤ b.buf.bits →
      (b.pos + coordLength b.buf b.pos ≤ b.buf.bits →
        exec .readCoord s = .next (s.succeeds b (coordLength b.buf b.pos) (.quantized (coordAt b.buf b.pos)))) ∧
      (b.buf.bits < b.pos + coordLength b.buf b.pos → exec .readCoord s = .next (s.fails b 1 b.buf.bits))

/-- R187: with an integer part the magnitude is that part and a fraction below 1, without one it is below 1; it is 0 exactly
when both flags are 0, or only hasFrac is set with a fraction of 0. -/
def Obligations.CoordMagnitudesFollowTheFlags : Prop :=
  ∀ (s : State) (b : Block) (k : Nat) (q : SignedMag), s.Ready b →
    exec .readCoord s = .next (s.succeeds b k (.quantized q)) →
      (bitAt b.buf b.pos = true →
        1 ≤ q.mag ∧ (fieldAt b.buf (b.pos + 3) 14 : Rat) + 1 ≤ q.mag ∧ q.mag < (fieldAt b.buf (b.pos + 3) 14 : Rat) + 2) ∧
      (bitAt b.buf b.pos = false → q.mag < 1) ∧
      (q.value = 0 ↔ bitAt b.buf b.pos = false ∧
        (bitAt b.buf (b.pos + 1) = false ∨ fieldAt b.buf (b.pos + 3) 5 = 0))

/-! ### The assembly language -/

/-- The first clause is R68's: the assembler gives back every legal word from its disassembly. The second clause is the model's
choice (log entry 8, DESIGN CHOICE), not R68's: the `.word` line that R68 has the disassembler print for an illegal word is
refused by the assembler, whose lines begin with a mnemonic of R63. -/
def Obligations.AssemblerReadsTheDisassembly : Prop :=
  ∀ w : Command,
    ((∃ i, decode w = .ok i) → assembleLine (disassemble w) = .ok w) ∧
      ((∃ e, decode w = .error e) → assembleLine (disassemble w) = .error .unknownMnemonic)
end

