-- ==== Sys2Proof/Config.lean ====
section
/-! DEFINITION. What the spec leaves to an instance: the floating-point delivery `QUANT_FLOAT` of R6 and R188, with no body, so that no proof can see a format or a rounding. -/

namespace Sys2Proof

/-- The width of the floating-point bus of an instance that has one; OPEN in R6 and P4 (log entry 4). -/
opaque Config.quantFloatBits : Nat

/-- `QUANT_FLOAT` on a signed-magnitude rational (R188): a fixed function of the exact value, the sign of zero included. -/
opaque Config.quantFloat : SignedMag → BitVec Config.quantFloatBits

/-- `QUANT_FLOAT` on a `(neg, sq)` pair (R188). -/
opaque Config.quantFloatRoot : SignedRoot → BitVec Config.quantFloatBits

end Sys2Proof
end

