-- ==== Sys2Proof/Laws/Buffer.lean ====
section
/-! SUPPORT. The buffer's memory: what `LOAD` lists, reads as it was given and in canonical form. -/

namespace Sys2Proof.Machine

/-- What the memory over `bytes` at `lo` reads as, at every address. -/
theorem Memory.read_ofBytesFrom (bytes : List Byte) (lo a : Nat) :
    Memory.read (Memory.ofBytesFrom lo bytes) a = if lo ≤ a then bytes.getD (a - lo) unlistedByte else unlistedByte := by
  induction bytes generalizing lo with
  | nil => simp [Memory.ofBytesFrom, Memory.read]
  | cons v rest ih =>
    by_cases hv : v = unlistedByte
    · subst hv
      rw [Memory.ofBytesFrom, if_pos rfl, ih]
      rcases Nat.lt_trichotomy lo a with h | h | h
      · obtain ⟨d, rfl⟩ : ∃ d, a = lo + 1 + d := ⟨a - lo - 1, by omega⟩
        rw [if_pos (by omega), if_pos (by omega), show lo + 1 + d - lo = d + 1 by omega,
          show lo + 1 + d - (lo + 1) = d by omega, List.getD_cons_succ]
      · subst h; simp
      · rw [if_neg (by omega), if_neg (by omega)]
    · rw [Memory.ofBytesFrom, if_neg hv, Memory.read, ih]
      rcases Nat.lt_trichotomy lo a with h | h | h
      · obtain ⟨d, rfl⟩ : ∃ d, a = lo + 1 + d := ⟨a - lo - 1, by omega⟩
        rw [if_neg (by omega), if_pos (by omega), if_pos (by omega), show lo + 1 + d - lo = d + 1 by omega,
          show lo + 1 + d - (lo + 1) = d by omega, List.getD_cons_succ]
      · subst h; simp
      · rw [if_neg (by omega), if_neg (by omega), if_neg (by omega)]

/-- `LOAD` stores the bytes it is given (R21, R250). -/
theorem memRead_ofBytes (bytes : List Byte) (a : Nat) : memRead (Buffer.ofBytes bytes) a = bytes.getD a unlistedByte := by
  simp [memRead, Buffer.ofBytes, Memory.read_ofBytesFrom]

/-- The canonical form from a higher address on is one from a lower address on. -/
theorem Memory.wfFrom_mono {len lo lo' : Nat} (hlo : lo ≤ lo') {m : Memory} (h : Memory.wfFrom len lo' m = true) :
    Memory.wfFrom len lo m = true := by
  cases m with
  | nil => rfl
  | cons c rest =>
    simp only [Memory.wfFrom, Bool.and_eq_true, decide_eq_true_eq] at h ⊢
    exact ⟨⟨by omega, h.1.2⟩, h.2⟩

theorem Memory.wfFrom_ofBytesFrom (bytes : List Byte) (lo : Nat) :
    Memory.wfFrom (lo + bytes.length) lo (Memory.ofBytesFrom lo bytes) = true := by
  induction bytes generalizing lo with
  | nil => rfl
  | cons v rest ih =>
    have h := ih (lo + 1)
    rw [show lo + 1 + rest.length = lo + (v :: rest).length by simp; omega] at h
    by_cases hv : v = unlistedByte
    · rw [Memory.ofBytesFrom, if_pos hv]
      exact Memory.wfFrom_mono (by omega) h
    · rw [Memory.ofBytesFrom, if_neg hv]
      simp only [Memory.wfFrom, h, Bool.and_true, decide_eq_true_eq]
      exact ⟨le_refl _, by simp, hv⟩

/-- `LOAD`, the one operation that makes a memory, makes a canonical one. -/
theorem wf_ofBytes (bytes : List Byte) : Memory.wf (Buffer.ofBytes bytes).len (Buffer.ofBytes bytes).cells = true := by
  simpa [Memory.wf, Buffer.ofBytes] using Memory.wfFrom_ofBytesFrom bytes 0

/-- The reset state's memory is canonical. -/
theorem wf_reset : ∀ b, State.reset.block = some b → Memory.wf b.buf.len b.buf.cells = true := by
  intro b h
  cases h
  rfl

end Sys2Proof.Machine
end

