-- ==== Sys2Proof/Laws/Decode.lean ====
section
/-! SUPPORT. The two fields of a command word, and decoding in terms of them (R61, R64). -/

namespace Sys2Proof

@[simp] theorem opField_append (op : BitVec 8) (n : BitVec 24) : opField (op ++ n : Command) = op :=
  BitVec.extractLsb'_append_eq_left

@[simp] theorem nField_append (op : BitVec 8) (n : BitVec 24) : nField (op ++ n : Command) = n :=
  BitVec.extractLsb'_append_eq_right

/-- A word is its two fields side by side. -/
theorem fields_append (w : Command) : (opField w ++ nField w : Command) = w := by
  apply BitVec.eq_of_toNat_eq
  have := w.isLt
  rw [BitVec.toNat_append, ← Nat.shiftLeft_add_eq_or_of_lt (nField w).isLt]
  simp [opField, nField, Nat.shiftRight_eq_div_pow, Nat.shiftLeft_eq]
  omega

/-- What the decoder sees of an encoded command. -/
theorem decode_encode (i : Instr) : decode (encode i) = decodeFields (opcode i) (BitVec.ofNat 24 (operandOf i)) := by
  rw [decode, encode, opField_append, nField_append]

end Sys2Proof
end

