-- ==== Sys2Proof/Laws/State.lean ====
section
/-! SUPPORT. One lemma per field per update of a state or a block, and reset as `LOAD`. -/

namespace Sys2Proof.Machine

section Answer
variable (s : State) (b : Block) (r : Response)
@[simp] theorem State.answer_block : (s.answer b r).block = some b := rfl
@[simp] theorem State.answer_pending : (s.answer b r).pending = s.pending := rfl
@[simp] theorem State.answer_responses : (s.answer b r).responses = s.responses ++ [r] := rfl
end Answer

section Capture
variable (b : Block) (e : ErrorKind) (start p : Nat)
@[simp] theorem Block.capture_buf : (b.capture e start p).buf = b.buf := rfl
@[simp] theorem Block.capture_pos : (b.capture e start p).pos = p := rfl
@[simp] theorem Block.capture_err : (b.capture e start p).err = errorCode e := rfl
@[simp] theorem Block.capture_errStart : (b.capture e start p).errStart = start := rfl
@[simp] theorem Block.capture_errPos : (b.capture e start p).errPos = p := rfl
end Capture

section Load
variable (bytes : List Byte)
@[simp] theorem Block.load_buf : (Block.load bytes).buf = Buffer.ofBytes bytes := rfl
@[simp] theorem Block.load_pos : (Block.load bytes).pos = 0 := rfl
@[simp] theorem Block.load_err : (Block.load bytes).err = 0 := rfl
@[simp] theorem Block.load_errStart : (Block.load bytes).errStart = 0 := rfl
@[simp] theorem Block.load_errPos : (Block.load bytes).errPos = 0 := rfl
@[simp] theorem Buffer.ofBytes_len : (Buffer.ofBytes bytes).len = bytes.length := rfl
end Load

section Succeeds
variable (s : State) (b : Block) (k : Nat) (v : Value)
@[simp] theorem State.succeeds_block : (s.succeeds b k v).block = some { b with pos := b.pos + k } := rfl
@[simp] theorem State.succeeds_pending : (s.succeeds b k v).pending = s.pending := rfl
@[simp] theorem State.succeeds_responses : (s.succeeds b k v).responses = s.responses ++ [.ok v] := rfl
end Succeeds

section Fails
variable (s : State) (b : Block) (kind : BitVec 3) (p : Nat)
@[simp] theorem State.fails_block :
    (s.fails b kind p).block = some { b with pos := p, err := kind, errStart := b.pos, errPos := p } := rfl
@[simp] theorem State.fails_pending : (s.fails b kind p).pending = s.pending := rfl
@[simp] theorem State.fails_responses : (s.fails b kind p).responses = s.responses ++ [.err kind b.pos p] := rfl
end Fails

section RespondsOnly
variable (s : State) (r : Response)
@[simp] theorem State.respondsOnly_block : (s.respondsOnly r).block = s.block := rfl
@[simp] theorem State.respondsOnly_pending : (s.respondsOnly r).pending = s.pending := rfl
@[simp] theorem State.respondsOnly_responses : (s.respondsOnly r).responses = s.responses ++ [r] := rfl
end RespondsOnly

section SendFirst
variable (s : State) (w : Command)
@[simp] theorem sendFirst_block : (sendFirst w s).block = s.block := rfl
@[simp] theorem sendFirst_pending : (sendFirst w s).pending = .command w :: s.pending := rfl
@[simp] theorem sendFirst_responses : (sendFirst w s).responses = s.responses := rfl
end SendFirst

/-- Answering with a block that is already there changes the responses alone. -/
theorem State.answer_self {s : State} {b : Block} (h : s.block = some b) (r : Response) :
    s.answer b r = s.respondsOnly r := by
  simp [State.answer, State.respondsOnly, h]

/-- The reset state is the unloaded one after `LOAD` of no bytes (R250). -/
theorem reset_eq_load_empty : Host.Outcome.next State.reset = performLoad [] State.unloaded := rfl

end Sys2Proof.Machine
end

