-- ==== Sys2Proof/Laws/Ops.lean ====
section
/-! SUPPORT. What each shared operation can do, once: the provers cite these lemmas instead of unfolding the operations. -/

namespace Sys2Proof.Machine

/-! ### Sequencing -/

section Sequencing
variable {α β : Type} {x : Read α} {f : α → Read β} {p q : Nat}

theorem read_bind_ok {a : α} (h : x.run p = .ok a q) : (x >>= f).run p = (f a).run q := by
  rw [EStateM.run_bind, h]

theorem read_bind_error {e : ErrorKind} (h : x.run p = .error e q) : (x >>= f).run p = .error e q := by
  rw [EStateM.run_bind, h]

theorem read_pure (a : α) : (pure a : Read α).run p = .ok a p := rfl

theorem read_throw (e : ErrorKind) : (throw e : Read α).run p = .error e p := rfl

/-- A sequence that ends well: both parts did. -/
theorem read_bind_eq_ok {b : β} {r : Nat} (h : (x >>= f).run p = .ok b r) :
    ∃ a q, x.run p = .ok a q ∧ (f a).run q = .ok b r := by
  cases hx : x.run p with
  | ok a q => exact ⟨a, q, rfl, by rwa [read_bind_ok hx] at h⟩
  | error e q => rw [read_bind_error hx] at h; cases h

end Sequencing

/-! ### Fields of the stream -/

variable {B : Buffer} {p q : Nat}

theorem fieldAt_lt (B : Buffer) (p n : Nat) : fieldAt B p n < 2 ^ n := by
  induction n with
  | zero => simp [fieldAt]
  | succ n ih =>
    have h : (bitAt B (p + n)).toNat ≤ 1 := Bool.toNat_le _
    have h2 : (bitAt B (p + n)).toNat * 2 ^ n ≤ 1 * 2 ^ n := Nat.mul_le_mul_right _ h
    rw [fieldAt, pow_succ]
    omega

/-- A field is its low part and its high part (R42). -/
theorem fieldAt_add (B : Buffer) (p a b : Nat) : fieldAt B p (a + b) = fieldAt B p a + fieldAt B (p + a) b * 2 ^ a := by
  induction b with
  | zero => simp [fieldAt]
  | succ b ih => rw [← Nat.add_assoc, fieldAt, ih, fieldAt, pow_add, Nat.add_assoc p a b]; ring

theorem fieldAt_one (B : Buffer) (p : Nat) : fieldAt B p 1 = (bitAt B p).toNat := by simp [fieldAt]

/-- The first bit read is the field's least-significant bit (R9). -/
theorem fieldAt_succ_low (B : Buffer) (p n : Nat) :
    fieldAt B p (n + 1) = (bitAt B p).toNat + fieldAt B (p + 1) n * 2 := by
  rw [Nat.add_comm n 1, fieldAt_add, fieldAt_one, pow_one]

/-- Placing bits above a value that does not reach them adds them. -/
theorem or_shiftLeft_eq_add {v i : Nat} (h : v < 2 ^ i) (b : Nat) : v ||| (b <<< i) = v + b * 2 ^ i := by
  rw [Nat.or_comm, Nat.shiftLeft_eq, Nat.mul_comm b, ← Nat.two_pow_add_eq_or_of_lt h, Nat.add_comm]

/-! ### TakeBit and ReadBits -/

theorem takeBit_ok (h : p < B.bits) : (takeBit B).run p = .ok (bitAt B p) (p + 1) := by
  change EStateM.run (if B.bits ≤ p then _ else _ : Read Bool) p = _
  rw [if_neg (by omega)]
  rfl

theorem takeBit_end (h : B.bits ≤ p) : (takeBit B).run p = .error .endOfBuffer p := by
  change EStateM.run (if B.bits ≤ p then _ else _ : Read Bool) p = _
  rw [if_pos h]
  rfl

theorem readBitsFrom_ok {left i v : Nat} (h : p + left ≤ B.bits) (hv : v < 2 ^ i) :
    (readBitsFrom B left i v).run p = .ok (v + fieldAt B p left * 2 ^ i) (p + left) := by
  induction left generalizing p i v with
  | zero => simp [readBitsFrom, fieldAt]
  | succ left ih =>
    have hb : (bitAt B p).toNat ≤ 1 := Bool.toNat_le _
    have hb2 : (bitAt B p).toNat * 2 ^ i ≤ 1 * 2 ^ i := Nat.mul_le_mul_right _ hb
    rw [readBitsFrom, read_bind_ok (takeBit_ok (by omega)), or_shiftLeft_eq_add hv,
      ih (by omega) (by rw [pow_succ]; omega), fieldAt_succ_low]
    congr 1
    · ring
    · omega

theorem readBitsFrom_end {left i v : Nat} (hp : p ≤ B.bits) (h : B.bits < p + left) :
    (readBitsFrom B left i v).run p = .error .endOfBuffer B.bits := by
  induction left generalizing p i v with
  | zero => omega
  | succ left ih =>
    rw [readBitsFrom]
    by_cases hlt : p < B.bits
    · rw [read_bind_ok (takeBit_ok hlt)]
      exact ih (by omega) (by omega)
    · obtain rfl : p = B.bits := by omega
      exact read_bind_error (takeBit_end (le_refl _))

/-- `ReadBits(n)` with enough bits (R102): the field at the cursor. -/
theorem readBits_ok {n : Nat} (hn : n ≤ 32) (h : p + n ≤ B.bits) :
    (readBits B n).run p = .ok (fieldAt B p n) (p + n) := by
  rw [readBits, if_neg (by omega), readBitsFrom_ok h (by simp)]
  simp

/-- `ReadBits(n)` with too few bits (R102, R226): every remaining bit is consumed. -/
theorem readBits_end {n : Nat} (hn : n ≤ 32) (hp : p ≤ B.bits) (h : B.bits < p + n) :
    (readBits B n).run p = .error .endOfBuffer B.bits := by
  rw [readBits, if_neg (by omega), readBitsFrom_end hp h]

/-- `ReadBits(n)` with `n > 32` (R102): nothing is consumed. -/
theorem readBits_wide {n : Nat} (hn : 32 < n) : (readBits B n).run p = .error .invalidWidth p := by
  rw [readBits, if_pos hn, read_throw]

/-! ### Groups of bytes -/

theorem readGroup_eq (final : Bool) : (readGroup B final).run p =
    (do let v ← readBits B (if final = true ∧ 1 ≤ remainingBits B p ∧ remainingBits B p ≤ 7 then remainingBits B p else 8)
        return BitVec.ofNat 8 v : Read Byte).run p := rfl

/-- A full group (R105). -/
theorem readGroup_full {final : Bool} (h : p + 8 ≤ B.bits) :
    (readGroup B final).run p = .ok (BitVec.ofNat 8 (fieldAt B p 8)) (p + 8) := by
  rw [readGroup_eq, if_neg (by unfold remainingBits; omega), read_bind_ok (readBits_ok (by omega) h), read_pure]

/-- The partial final group (R106). -/
theorem readGroup_partial (h1 : p < B.bits) (h2 : B.bits < p + 8) :
    (readGroup B true).run p = .ok (BitVec.ofNat 8 (fieldAt B p (B.bits - p))) B.bits := by
  have hr : remainingBits B p = B.bits - p := rfl
  rw [readGroup_eq, if_pos ⟨rfl, by omega, by omega⟩, hr, read_bind_ok (readBits_ok (by omega) (by omega)), read_pure]
  congr 1
  omega

/-- A group that lacks bits (R105): not the final one, or one with nothing left. -/
theorem readGroup_end {final : Bool} (hp : p ≤ B.bits) (h : B.bits < p + 8) (hf : final = false ∨ p = B.bits) :
    (readGroup B final).run p = .error .endOfBuffer B.bits := by
  rw [readGroup_eq, if_neg, read_bind_error (readBits_end (by omega) hp h)]
  rintro ⟨h1, h2, -⟩
  rcases hf with hf | hf
  · simp [hf] at h1
  · unfold remainingBits at h2; omega

theorem bytesAt_succ_low (B : Buffer) (p k : Nat) :
    bytesAt B p (k + 1) = BitVec.ofNat 8 (fieldAt B p 8) :: bytesAt B (p + 8) k := by
  induction k with
  | zero => simp [bytesAt]
  | succ k ih => rw [bytesAt, ih, bytesAt, List.cons_append, Nat.mul_succ, Nat.add_comm (8 * k), Nat.add_assoc]

theorem bytesAt_length (B : Buffer) (p k : Nat) : (bytesAt B p k).length = k := by
  induction k with
  | zero => rfl
  | succ k ih => simp [bytesAt, ih]

/-- `ReadByteArray(count)` with all its bits (R104, R105). -/
theorem readByteArray_full {count : Nat} (h : p + 8 * count ≤ B.bits) :
    (readByteArray B count).run p = .ok (bytesAt B p count) (p + 8 * count) := by
  induction count generalizing p with
  | zero => rfl
  | succ k ih =>
    rw [readByteArray, read_bind_ok (readGroup_full (by omega)), read_bind_ok (ih (by omega)), read_pure, bytesAt_succ_low]
    congr 1
    omega

/-- `ReadByteArray(count)` with a partial final group (R106): all the remaining bits are consumed. -/
theorem readByteArray_partial {k : Nat} (h1 : p + 8 * k < B.bits) (h2 : B.bits < p + 8 * k + 8) :
    (readByteArray B (k + 1)).run p =
      .ok (bytesAt B p k ++ [BitVec.ofNat 8 (fieldAt B (p + 8 * k) (B.bits - (p + 8 * k)))]) B.bits := by
  induction k generalizing p with
  | zero =>
    have hg : (readGroup B (0 == 0)).run p = _ := readGroup_partial (by omega) (by omega)
    rw [readByteArray, read_bind_ok hg]
    rfl
  | succ k ih =>
    have e : p + 8 * (k + 1) = p + 8 + 8 * k := by omega
    rw [readByteArray, read_bind_ok (readGroup_full (by omega)), read_bind_ok (ih (by omega) (by omega)), read_pure,
      bytesAt_succ_low, e, List.cons_append]

/-- `ReadByteArray(count)` that finds no bit for its final group, or fewer than 8 for another (R105). -/
theorem readByteArray_end {k : Nat} (hp : p ≤ B.bits) (h : B.bits ≤ p + 8 * k) :
    (readByteArray B (k + 1)).run p = .error .endOfBuffer B.bits := by
  induction k generalizing p with
  | zero =>
    rw [readByteArray, read_bind_error (readGroup_end hp (by omega) (.inr (by omega)))]
  | succ k ih =>
    rw [readByteArray]
    by_cases hg : p + 8 ≤ B.bits
    · rw [read_bind_ok (readGroup_full hg), read_bind_error (ih (by omega) (by omega))]
    · rw [read_bind_error (readGroup_end hp (by omega) (.inl (by simp)))]

theorem readFullBytes_ok {k : Nat} (h : p + 8 * k ≤ B.bits) :
    (readFullBytes B k).run p = .ok (bytesAt B p k) (p + 8 * k) := by
  induction k generalizing p with
  | zero => rfl
  | succ k ih =>
    rw [readFullBytes, read_bind_ok (readBits_ok (by omega) (by omega)), read_bind_ok (ih (by omega)), read_pure,
      bytesAt_succ_low]
    congr 1
    omega

theorem readFullBytes_end {k : Nat} (hp : p ≤ B.bits) (h : B.bits < p + 8 * k) :
    (readFullBytes B k).run p = .error .endOfBuffer B.bits := by
  induction k generalizing p with
  | zero => omega
  | succ k ih =>
    rw [readFullBytes]
    by_cases hg : p + 8 ≤ B.bits
    · rw [read_bind_ok (readBits_ok (by omega) hg), read_bind_error (ih (by omega) (by omega))]
    · rw [read_bind_error (readBits_end (by omega) hp (by omega))]

/-- `readBytesForBits(nbits)` with all its bits (R107). -/
theorem readBytesForBits_ok {nbits : Nat} (h : p + nbits ≤ B.bits) :
    (readBytesForBits B nbits).run p =
      .ok (bytesAt B p (nbits / 8) ++
        (if nbits % 8 = 0 then [] else [BitVec.ofNat 8 (fieldAt B (p + 8 * (nbits / 8)) (nbits % 8))])) (p + nbits) := by
  have e := Nat.div_add_mod nbits 8
  rw [readBytesForBits, read_bind_ok (readFullBytes_ok (by omega))]
  by_cases hr : nbits % 8 = 0
  · rw [if_pos hr, if_pos hr, read_pure, List.append_nil]
    congr 1
    omega
  · rw [if_neg hr, if_neg hr, read_bind_ok (readBits_ok (by omega) (by omega)), read_pure]
    congr 1
    omega

/-- `readBytesForBits(nbits)` with too few bits (R107): no clamping. -/
theorem readBytesForBits_end {nbits : Nat} (hp : p ≤ B.bits) (h : B.bits < p + nbits) :
    (readBytesForBits B nbits).run p = .error .endOfBuffer B.bits := by
  have e := Nat.div_add_mod nbits 8
  rw [readBytesForBits]
  by_cases hg : p + 8 * (nbits / 8) ≤ B.bits
  · rw [read_bind_ok (readFullBytes_ok hg), if_neg (by omega), read_bind_error (readBits_end (by omega) hg (by omega))]
  · rw [read_bind_error (readFullBytes_end hp (by omega))]

/-! ### Normals -/

theorem readNormal_ok (h : p + 12 ≤ B.bits) : (readNormal B).run p = .ok (normalAt B p) (p + 12) := by
  rw [readNormal, read_bind_ok (takeBit_ok (by omega)), read_bind_ok (readBits_ok (by omega) (by omega)), read_pure]
  simp [normalAt, ratio, Rat.mkRat_eq_div]

theorem readNormal_end (hp : p ≤ B.bits) (h : B.bits < p + 12) : (readNormal B).run p = .error .endOfBuffer B.bits := by
  rw [readNormal]
  by_cases hg : p < B.bits
  · rw [read_bind_ok (takeBit_ok hg), read_bind_error (readBits_end (by omega) (by omega) (by omega))]
  · obtain rfl : p = B.bits := by omega
    exact read_bind_error (takeBit_end (le_refl _))

/-! ### VarUInt groups -/

/-- The data of a group is its low 7 bits (R73). -/
theorem group_data (B : Buffer) (p : Nat) : fieldAt B p 8 &&& 0x7F = fieldAt B p 7 := by
  rw [show (0x7F : Nat) = 2 ^ 7 - 1 from rfl, Nat.and_two_pow_sub_one_eq_mod, fieldAt, Nat.add_mul_mod_self_right,
    Nat.mod_eq_of_lt (fieldAt_lt B p 7)]

/-- The continuation bit of a group is its eighth bit (R73). -/
theorem group_ends_iff (B : Buffer) (p : Nat) : fieldAt B p 8 &&& 0x80 = 0 ↔ bitAt B (p + 7) = false := by
  have h := fieldAt_lt B p 7
  have e : fieldAt B p 8 / 2 ^ 7 = (bitAt B (p + 7)).toNat := by
    rw [fieldAt, Nat.add_mul_div_right _ _ (by decide), Nat.div_eq_of_lt h, Nat.zero_add]
  rw [show (0x80 : Nat) = 2 ^ 7 from rfl, Nat.and_two_pow, Nat.testBit_eq_decide_div_mod_eq, e]
  cases bitAt B (p + 7) <;> simp

theorem groupsValue_lt (B : Buffer) (p g : Nat) : groupsValue B p g < 2 ^ (7 * g) := by
  induction g with
  | zero => simp [groupsValue]
  | succ g ih =>
    have h := fieldAt_lt B (p + 8 * g) 7
    have h2 : (fieldAt B (p + 8 * g) 7 + 1) * 2 ^ (7 * g) ≤ 2 ^ 7 * 2 ^ (7 * g) := Nat.mul_le_mul_right _ h
    rw [groupsValue, Nat.mul_succ, pow_add, Nat.mul_comm (2 ^ (7 * g))]
    rw [Nat.add_mul] at h2
    omega

/-- One group of the loop that does not end it (R132). -/
theorem readVarUIntFrom_continue {W left j : Nat} (h : p + 8 * j + 8 ≤ B.bits) (hc : groupContinues B p j = true) :
    (readVarUIntFrom B W (left + 1) j (groupsValue B p j)).run (p + 8 * j) =
      (readVarUIntFrom B W left (j + 1) (groupsValue B p (j + 1))).run (p + 8 * (j + 1)) := by
  rw [readVarUIntFrom, read_bind_ok (readBits_ok (by omega) h), group_data, or_shiftLeft_eq_add (groupsValue_lt B p j),
    if_neg (by rw [group_ends_iff]; simpa [groupContinues] using hc)]
  rfl

/-- The group that ends the loop (R132): its value, or too large for the width. -/
theorem readVarUIntFrom_ends {W left j : Nat} (h : p + 8 * j + 8 ≤ B.bits) (hc : groupContinues B p j = false) :
    (readVarUIntFrom B W (left + 1) j (groupsValue B p j)).run (p + 8 * j) =
      if 2 ^ W ≤ groupsValue B p (j + 1) then .error .malformedVarInt (p + 8 * (j + 1))
      else .ok (groupsValue B p (j + 1)) (p + 8 * (j + 1)) := by
  rw [readVarUIntFrom, read_bind_ok (readBits_ok (by omega) h), group_data, or_shiftLeft_eq_add (groupsValue_lt B p j),
    if_pos ((group_ends_iff _ _).2 hc), ← groupsValue]
  by_cases hw : 2 ^ W ≤ groupsValue B p (j + 1)
  · rw [if_pos hw, if_pos hw, read_throw]; rfl
  · rw [if_neg hw, if_neg hw, read_pure]; rfl

/-- The groups that do not end the loop, all at once. -/
theorem readVarUIntFrom_skip {W left g : Nat} (h : p + 8 * g ≤ B.bits) (hc : allContinue B p g) :
    (readVarUIntFrom B W (left + g) 0 0).run p = (readVarUIntFrom B W left g (groupsValue B p g)).run (p + 8 * g) := by
  induction g generalizing left with
  | zero => rfl
  | succ g ih =>
    rw [Nat.add_comm g 1, ← Nat.add_assoc, ih (by omega) (fun j hj => hc j (by omega)),
      readVarUIntFrom_continue (by omega) (hc g (by omega)), Nat.add_comm 1 g]

/-- A VarUInt that ends within its group bound (R132, R135). -/
theorem readVarUInt_ends {G W g : Nat} (hg : g ≤ G) (h : p + 8 * g ≤ B.bits) (he : endsAfter B p g) :
    (readVarUInt B G W).run p =
      if 2 ^ W ≤ groupsValue B p g then .error .malformedVarInt (p + 8 * g)
      else .ok (groupsValue B p g) (p + 8 * g) := by
  obtain ⟨h1, hc, hl⟩ := he
  obtain ⟨g, rfl⟩ : ∃ k, g = k + 1 := ⟨g - 1, by omega⟩
  obtain ⟨left, rfl⟩ : ∃ k, G = k + 1 + g := ⟨G - g - 1, by omega⟩
  simp only [Nat.add_sub_cancel] at hc hl
  rw [readVarUInt, readVarUIntFrom_skip (by omega) hc, readVarUIntFrom_ends (by omega) hl]

/-- A VarUInt whose every group continues (R135). -/
theorem readVarUInt_unended {G W : Nat} (h : p + 8 * G ≤ B.bits) (hc : allContinue B p G) :
    (readVarUInt B G W).run p = .error .malformedVarInt (p + 8 * G) := by
  have e := readVarUIntFrom_skip (W := W) (left := 0) h hc
  rw [Nat.zero_add] at e
  rw [readVarUInt, e, readVarUIntFrom, read_throw]

/-- A VarUInt that the buffer cuts short (R135, R227). -/
theorem readVarUInt_end {G W g : Nat} (hg : g < G) (h : p + 8 * g ≤ B.bits) (h2 : B.bits < p + 8 * g + 8)
    (hc : allContinue B p g) : (readVarUInt B G W).run p = .error .endOfBuffer B.bits := by
  obtain ⟨left, rfl⟩ : ∃ k, G = k + 1 + g := ⟨G - g - 1, by omega⟩
  rw [readVarUInt, readVarUIntFrom_skip h hc, readVarUIntFrom, read_bind_error (readBits_end (by omega) h (by omega))]

/-- The three ways a VarUInt can go: it ends, it never ends, or the buffer does. -/
theorem varUInt_trichotomy (B : Buffer) (p G : Nat) (hp : p ≤ B.bits) :
    (∃ g, g ≤ G ∧ p + 8 * g ≤ B.bits ∧ endsAfter B p g) ∨ (p + 8 * G ≤ B.bits ∧ allContinue B p G) ∨
      ∃ g, g < G ∧ p + 8 * g ≤ B.bits ∧ B.bits < p + 8 * g + 8 ∧ allContinue B p g := by
  induction G with
  | zero => exact .inr (.inl ⟨by omega, fun j hj => by omega⟩)
  | succ G ih =>
    rcases ih with ⟨g, h1, h2, h3⟩ | ⟨h1, h2⟩ | ⟨g, h1, h2⟩
    · exact .inl ⟨g, by omega, h2, h3⟩
    · by_cases hb : p + 8 * G + 8 ≤ B.bits
      · cases hc : groupContinues B p G with
        | true =>
          refine .inr (.inl ⟨by omega, fun j hj => ?_⟩)
          rcases Nat.lt_succ_iff_lt_or_eq.1 hj with hj | rfl
          · exact h2 j hj
          · exact hc
        | false => exact .inl ⟨G + 1, le_refl _, by omega, by omega, h2, hc⟩
      · exact .inr (.inr ⟨G, by omega, h1, by omega, h2⟩)
    · exact .inr (.inr ⟨g, by omega, h2⟩)

/-! ### Little-endian words -/

theorem ofNat8_fieldAt_toNat {n : Nat} (h : n ≤ 8) : (BitVec.ofNat 8 (fieldAt B p n)).toNat = fieldAt B p n := by
  have h1 := fieldAt_lt B p n
  have h2 : 2 ^ n ≤ 2 ^ 8 := Nat.pow_le_pow_right (by decide) h
  simp only [BitVec.toNat_ofNat]
  exact Nat.mod_eq_of_lt (by omega)

theorem leWordFrom_append (j : Nat) (bs cs : List Byte) :
    leWordFrom j (bs ++ cs) = leWordFrom j bs ||| leWordFrom (j + bs.length) cs := by
  induction bs generalizing j with
  | nil => simp [leWordFrom]
  | cons b bs ih =>
    rw [List.cons_append, leWordFrom, ih, leWordFrom, Nat.or_assoc, List.length_cons, Nat.add_right_comm, Nat.add_assoc]

/-- Bytes side by side make the field they stand in (R43, R76). -/
theorem leWordFrom_bytesAt (B : Buffer) (p m : Nat) : leWordFrom 0 (bytesAt B p m) = fieldAt B p (8 * m) := by
  induction m with
  | zero => rfl
  | succ m ih =>
    rw [bytesAt, leWordFrom_append, ih, bytesAt_length, Nat.zero_add, leWordFrom, leWordFrom, Nat.or_zero,
      ofNat8_fieldAt_toNat (le_refl _), or_shiftLeft_eq_add (fieldAt_lt B p _), Nat.mul_succ, fieldAt_add]

theorem leWordFrom_bytesAt_partial {m r : Nat} (hr : r ≤ 8) :
    leWordFrom 0 (bytesAt B p m ++ [BitVec.ofNat 8 (fieldAt B (p + 8 * m) r)]) = fieldAt B p (8 * m + r) := by
  rw [leWordFrom_append, leWordFrom_bytesAt, bytesAt_length, Nat.zero_add, leWordFrom, leWordFrom, Nat.or_zero,
    ofNat8_fieldAt_toNat hr, or_shiftLeft_eq_add (fieldAt_lt B p _), fieldAt_add]

/-- A little-endian read (R160 to R162): the field of all its bits, or of those that remain when the last byte is partial. -/
theorem readLittleEndian_ok {m : Nat} (h : p + 8 * m < B.bits) :
    (readLittleEndian B (m + 1)).run p =
      .ok (fieldAt B p (min (8 * (m + 1)) (B.bits - p))) (p + min (8 * (m + 1)) (B.bits - p)) := by
  rw [readLittleEndian]
  by_cases hf : p + 8 * (m + 1) ≤ B.bits
  · rw [read_bind_ok (readByteArray_full hf), read_pure, leWordFrom_bytesAt, Nat.min_eq_left (by omega)]
  · rw [read_bind_ok (readByteArray_partial h (by omega)), read_pure, leWordFrom_bytesAt_partial (by omega),
      Nat.min_eq_right (by omega), show 8 * m + (B.bits - (p + 8 * m)) = B.bits - p by omega]
    congr 1
    omega

/-- A little-endian read with nothing left for its last byte (R160). -/
theorem readLittleEndian_end {m : Nat} (hp : p ≤ B.bits) (h : B.bits ≤ p + 8 * m) :
    (readLittleEndian B (m + 1)).run p = .error .endOfBuffer B.bits := by
  rw [readLittleEndian, read_bind_error (readByteArray_end hp h)]

/-! ### Strings -/

/-- A string with `k` characters before its terminator (R164), when there are rounds enough. -/
theorem readStringFuel_ok {fuel k : Nat} (hf : k < fuel) (h : p + 8 * k + 8 ≤ B.bits)
    (hc : ∀ j, j < k → fieldAt B (p + 8 * j) 8 ≠ 0) (ht : fieldAt B (p + 8 * k) 8 = 0) :
    (readStringFuel B fuel).run p = .ok (bytesAt B p k) (p + 8 * k + 8) := by
  induction k generalizing p fuel with
  | zero =>
    obtain ⟨fuel, rfl⟩ : ∃ f, fuel = f + 1 := ⟨fuel - 1, by omega⟩
    rw [readStringFuel, read_bind_ok (readBits_ok (by omega) (by omega)), if_pos (by simpa using ht), read_pure]
    rfl
  | succ k ih =>
    obtain ⟨fuel, rfl⟩ : ∃ f, fuel = f + 1 := ⟨fuel - 1, by omega⟩
    have e (j : Nat) : p + 8 + 8 * j = p + 8 * (j + 1) := by omega
    rw [readStringFuel, read_bind_ok (readBits_ok (by omega) (by omega)), if_neg (by simpa using hc 0 (by omega)),
      read_bind_ok (ih (by omega) (by omega) (fun j hj => by rw [e]; exact hc (j + 1) (by omega)) (by rwa [e])),
      read_pure, bytesAt_succ_low]
    congr 1
    omega

/-- A string with no terminator before fewer than 8 bits remain (R164). -/
theorem readStringFuel_end {fuel k : Nat} (hf : k < fuel) (h : p + 8 * k ≤ B.bits) (h2 : B.bits < p + 8 * k + 8)
    (hc : ∀ j, j < k → fieldAt B (p + 8 * j) 8 ≠ 0) : (readStringFuel B fuel).run p = .error .endOfBuffer B.bits := by
  induction k generalizing p fuel with
  | zero =>
    obtain ⟨fuel, rfl⟩ : ∃ f, fuel = f + 1 := ⟨fuel - 1, by omega⟩
    rw [readStringFuel, read_bind_error (readBits_end (by omega) (by omega) (by omega))]
  | succ k ih =>
    obtain ⟨fuel, rfl⟩ : ∃ f, fuel = f + 1 := ⟨fuel - 1, by omega⟩
    have e (j : Nat) : p + 8 + 8 * j = p + 8 * (j + 1) := by omega
    rw [readStringFuel, read_bind_ok (readBits_ok (by omega) (by omega)), if_neg (by simpa using hc 0 (by omega)),
      read_bind_error (ih (by omega) (by omega) (by omega) (fun j hj => by rw [e]; exact hc (j + 1) (by omega)))]

theorem readString_ok {k : Nat} (h : p + 8 * k + 8 ≤ B.bits)
    (hc : ∀ j, j < k → fieldAt B (p + 8 * j) 8 ≠ 0) (ht : fieldAt B (p + 8 * k) 8 = 0) :
    (readString B).run p = .ok (bytesAt B p k) (p + 8 * k + 8) :=
  readStringFuel_ok (by unfold Buffer.bits at h; omega) h hc ht

theorem readString_end {k : Nat} (h : p + 8 * k ≤ B.bits) (h2 : B.bits < p + 8 * k + 8)
    (hc : ∀ j, j < k → fieldAt B (p + 8 * j) 8 ≠ 0) : (readString B).run p = .error .endOfBuffer B.bits :=
  readStringFuel_end (by unfold Buffer.bits at h; omega) h h2 hc

/-! ### The command wrapper -/

theorem faulted_eq_true {b : Block} (h : b.err ≠ 0) : faulted b = true := by
  simpa [faulted] using h

theorem faulted_eq_false {b : Block} (h : b.err = 0) : faulted b = false := by
  simp [faulted, h]

/-- A reading command on a faulted block (R229). -/
theorem performRead_faulted {op : Buffer → Read Value} {s : State} {b : Block} (hb : s.block = some b) (he : b.err ≠ 0) :
    performRead op s = .next (s.respondsOnly (.faulted b.err b.errStart b.errPos)) := by
  simp [performRead, hb, faulted_eq_true he, State.answer_self hb]

/-- A reading command that succeeds (R228). -/
theorem performRead_ok {op : Buffer → Read Value} {s : State} {b : Block} {k : Nat} {v : Value} (h : s.Ready b)
    (hop : (op b.buf).run b.pos = .ok v (b.pos + k)) : performRead op s = .next (s.succeeds b k v) := by
  simp [performRead, h.1, faulted_eq_false h.2, hop, finish, State.answer, State.succeeds]

/-- A reading command that fails (R228): the whole of error capture. -/
theorem performRead_error {op : Buffer → Read Value} {s : State} {b : Block} {e : ErrorKind} {q : Nat} (h : s.Ready b)
    (hop : (op b.buf).run b.pos = .error e q) : performRead op s = .next (s.fails b (errorCode e) q) := by
  simp [performRead, h.1, faulted_eq_false h.2, hop, finish, State.answer, State.fails, Block.capture]

/-- Everything a reading command can do when it gives a next state (R228). -/
theorem performRead_next {op : Buffer → Read Value} {s t : State} (h : performRead op s = .next t) :
    ∃ b, s.block = some b ∧
      ((b.err ≠ 0 ∧ t = s.respondsOnly (.faulted b.err b.errStart b.errPos)) ∨
        (b.err = 0 ∧ t = finish s b ((op b.buf).run b.pos))) := by
  cases hb : s.block with
  | none => simp [performRead, hb] at h
  | some b =>
    refine ⟨b, rfl, ?_⟩
    by_cases he : b.err = 0
    · exact .inr ⟨he, by simpa [performRead, hb, faulted_eq_false he] using h.symm⟩
    · refine .inl ⟨he, ?_⟩
      rw [performRead_faulted hb he] at h
      exact (Host.Outcome.next.inj h).symm

/-- A command answered in every state of a loaded block (R229). -/
theorem performQuery_eq {value : Block → Value} {s : State} {b : Block} (hb : s.block = some b) :
    performQuery value s = .next (s.respondsOnly (.ok (value b))) := by
  simp [performQuery, hb, State.answer_self hb]

theorem performQuery_next {value : Block → Value} {s t : State} (h : performQuery value s = .next t) :
    ∃ b, s.block = some b ∧ t = s.respondsOnly (.ok (value b)) := by
  cases hb : s.block with
  | none => simp [performQuery, hb] at h
  | some b =>
    rw [performQuery_eq hb] at h
    exact ⟨b, rfl, (Host.Outcome.next.inj h).symm⟩

/-- An illegal word on a block that is not faulted (R225, R228). -/
theorem performIllegal_first {s : State} {b : Block} (h : s.Ready b) :
    performIllegal s = .next (s.fails b 4 b.pos) := by
  simp [performIllegal, h.1, faulted_eq_false h.2, State.answer, State.fails, Block.capture, errorCode]

/-- An illegal word on a faulted block leaves the record unchanged (R229). -/
theorem performIllegal_faulted {s : State} {b : Block} (hb : s.block = some b) (he : b.err ≠ 0) :
    performIllegal s = .next (s.respondsOnly (.err 4 b.pos b.pos)) := by
  simp [performIllegal, hb, faulted_eq_true he, State.answer_self hb, errorCode]

end Sys2Proof.Machine
end

