-- ==== Sys2Proof/Laws/Exec.lean ====
section
/-! SUPPORT. `exec` on each command, once: a reading command is `performRead` of its decoder (R228), REMAINING is answered always (R229). -/

namespace Sys2Proof.Machine

variable (s : State)

theorem exec_nextBit : exec .nextBit s = performRead (fun B => do return .bit (← takeBit B)) s := rfl
theorem exec_readBits (n : Nat) : exec (.readBits n) s = performRead (fun B => do return .unsigned (← readBits B n)) s := rfl
theorem exec_remaining : exec .remaining s = performQuery (fun b => .natural (remainingBits b.buf b.pos)) s := rfl
theorem exec_readByteArray (count : Nat) :
    exec (.readByteArray count) s = performRead (fun B => do return .bytes (← readByteArray B count)) s := rfl
theorem exec_readBytesForBits (nbits : Nat) :
    exec (.readBytesForBits nbits) s = performRead (fun B => do return .bytes (← readBytesForBits B nbits)) s := rfl
theorem exec_readBitVar : exec .readBitVar s = performRead (fun B => do return .unsigned (← readBitVar B)) s := rfl
theorem exec_readVarUInt32 :
    exec .readVarUInt32 s = performRead (fun B => do return .unsigned (← readVarUInt B 5 32)) s := rfl
theorem exec_readVarUInt64 :
    exec .readVarUInt64 s = performRead (fun B => do return .unsigned (← readVarUInt B 10 64)) s := rfl
theorem exec_readVarSInt :
    exec .readVarSInt s = performRead (fun B => do return .signed (unzigzag (← readVarUInt B 5 32))) s := rfl
theorem exec_readFieldPathBitVar :
    exec .readFieldPathBitVar s = performRead (fun B => do return .unsigned (← readFieldPath B)) s := rfl
theorem exec_readLittleEndian32 :
    exec .readLittleEndian32 s =
      performRead (fun B => do return .word32 (BitVec.ofNat 32 (← readLittleEndian B 4))) s := rfl
theorem exec_readLittleEndian64 :
    exec .readLittleEndian64 s =
      performRead (fun B => do return .word64 (BitVec.ofNat 64 (← readLittleEndian B 8))) s := rfl
theorem exec_readFloat :
    exec .readFloat s = performRead (fun B => do return .floatBits (BitVec.ofNat 32 (← readLittleEndian B 4))) s := rfl
theorem exec_readString : exec .readString s = performRead (fun B => do return .string (← readString B)) s := rfl
theorem exec_readAngle (n : Nat) :
    exec (.readAngle n) s = performRead (fun B => do return .quantized (← readAngle B n)) s := rfl
theorem exec_readNormal : exec .readNormal s = performRead (fun B => do return .quantized (← readNormal B)) s := rfl
theorem exec_read3fNormal : exec .read3fNormal s = performRead read3fNormal s := rfl
theorem exec_readCoord : exec .readCoord s = performRead (fun B => do return .quantized (← readCoord B)) s := rfl

/-- Every command but REMAINING is `performRead` of one decoder, whatever the state. -/
theorem exec_eq_performRead {i : Instr} (h : i ≠ .remaining) : ∃ op, ∀ s, exec i s = performRead op s := by
  cases i with
  | remaining => exact absurd rfl h
  | nextBit => exact ⟨_, exec_nextBit⟩
  | readBits n => exact ⟨_, fun s => exec_readBits s n⟩
  | readByteArray count => exact ⟨_, fun s => exec_readByteArray s count⟩
  | readBytesForBits nbits => exact ⟨_, fun s => exec_readBytesForBits s nbits⟩
  | readBitVar => exact ⟨_, exec_readBitVar⟩
  | readVarUInt32 => exact ⟨_, exec_readVarUInt32⟩
  | readVarUInt64 => exact ⟨_, exec_readVarUInt64⟩
  | readVarSInt => exact ⟨_, exec_readVarSInt⟩
  | readFieldPathBitVar => exact ⟨_, exec_readFieldPathBitVar⟩
  | readLittleEndian32 => exact ⟨_, exec_readLittleEndian32⟩
  | readLittleEndian64 => exact ⟨_, exec_readLittleEndian64⟩
  | readFloat => exact ⟨_, exec_readFloat⟩
  | readString => exact ⟨_, exec_readString⟩
  | readAngle n => exact ⟨_, fun s => exec_readAngle s n⟩
  | readNormal => exact ⟨_, exec_readNormal⟩
  | read3fNormal => exact ⟨_, exec_read3fNormal⟩
  | readCoord => exact ⟨_, exec_readCoord⟩

/-- A decoder whose value is wrapped for the response, when it succeeds. -/
theorem performRead_map_ok {α : Type} {op : Buffer → Read α} {f : α → Value} {s : State} {b : Block} {k : Nat} {a : α}
    (h : s.Ready b) (hop : (op b.buf).run b.pos = .ok a (b.pos + k)) :
    performRead (fun B => do return f (← op B)) s = .next (s.succeeds b k (f a)) :=
  performRead_ok h (by rw [read_bind_ok hop, read_pure])

/-- A decoder whose value is wrapped for the response, when it fails. -/
theorem performRead_map_error {α : Type} {op : Buffer → Read α} {f : α → Value} {s : State} {b : Block} {e : ErrorKind}
    {q : Nat} (h : s.Ready b) (hop : (op b.buf).run b.pos = .error e q) :
    performRead (fun B => do return f (← op B)) s = .next (s.fails b (errorCode e) q) :=
  performRead_error h (by rw [read_bind_error hop])

/-- One step on a command word (R60, R228). -/
theorem step_command {s : State} {w : Command} {rest : List HostAction} (h : s.pending = .command w :: rest) :
    step s = match decode w with
      | .ok i => exec i { s with pending := rest }
      | .error _ => performIllegal { s with pending := rest } := by
  cases hd : decode w <;> simp only [step, nextAction, h, hd]

/-- One step on a `LOAD` (R250). -/
theorem step_load {s : State} {bytes : List Byte} {rest : List HostAction} (h : s.pending = .load bytes :: rest) :
    step s = .next { s with block := some (Block.load bytes), pending := rest } := by
  simp only [step, nextAction, h, performLoad]

end Sys2Proof.Machine
end

