-- ==== Sys2Proof/Laws/PerInstr.lean ====
section
/-! SUPPORT. A fact of every command's encoding, one lemma per constructor. -/

namespace Sys2Proof.Laws.OpcodeField

/-- The encoded word carries the opcode of R63 in `OP` and the operand of R62 in `N`. -/
def Statement (i : Instr) : Prop :=
  opField (encode i) = opcode i ∧ nField (encode i) = BitVec.ofNat 24 (operandOf i)

theorem every (i : Instr) : Statement i := ⟨opField_append _ _, nField_append _ _⟩

theorem nextBit : Statement .nextBit := every _
theorem readBits (n : Nat) : Statement (.readBits n) := every _
theorem remaining : Statement .remaining := every _
theorem readByteArray (count : Nat) : Statement (.readByteArray count) := every _
theorem readBytesForBits (nbits : Nat) : Statement (.readBytesForBits nbits) := every _
theorem readBitVar : Statement .readBitVar := every _
theorem readVarUInt32 : Statement .readVarUInt32 := every _
theorem readVarUInt64 : Statement .readVarUInt64 := every _
theorem readVarSInt : Statement .readVarSInt := every _
theorem readFieldPathBitVar : Statement .readFieldPathBitVar := every _
theorem readLittleEndian32 : Statement .readLittleEndian32 := every _
theorem readLittleEndian64 : Statement .readLittleEndian64 := every _
theorem readFloat : Statement .readFloat := every _
theorem readString : Statement .readString := every _
theorem readAngle (n : Nat) : Statement (.readAngle n) := every _
theorem readNormal : Statement .readNormal := every _
theorem read3fNormal : Statement .read3fNormal := every _
theorem readCoord : Statement .readCoord := every _

end Sys2Proof.Laws.OpcodeField
end

