-- ==== Sys2Proof/Machine/Delivery.lean ====
section
/-! DEFINITION. Floating-point delivery of a response's exact values (R188), for an instance that has a floating-point bus. -/

namespace Sys2Proof.Machine

/-- What a floating-point bus carries for a value: each exact result of R180, R182, R184 and R186 through `QUANT_FLOAT`, in
the order x, y, z. No other value goes through it: a READFLOAT pattern is delivered unchanged (R163). -/
def deliverFloats : Value → List (BitVec Config.quantFloatBits)
  | .quantized q => [Config.quantFloat q]
  | .normal3 x y z => [Config.quantFloat x, Config.quantFloat y, Config.quantFloatRoot z]
  | _ => []

end Sys2Proof.Machine
end

