-- ==== Sys2Proof/Tests/Slice0.lean ====
section
/-! SUPPORT. Tests: ill-formed terms, decoded words, one step per test vector of 95_test_vectors.md, and a witness for the hypotheses of every statement. -/

namespace Sys2Proof.Tests

-- one test after another: the file needs no thread for each of them
set_option Elab.async false

open Sys2Proof Sys2Proof.Machine

/-! ### Helpers -/

/-- A block loaded with `bytes`, its cursor moved to `pos`. -/
def blockAt (bytes : List Byte) (pos : Nat) : Block := { Block.load bytes with pos := pos }

/-- An instance that holds that block. -/
def stateAt (bytes : List Byte) (pos : Nat) : State := { block := some (blockAt bytes pos), pending := [], responses := [] }

/-- An instance that failed with code `kind` at `pos`, having begun there. -/
def failedAt (bytes : List Byte) (pos : Nat) (kind : BitVec 3) : State :=
  { block := some { blockAt bytes pos with err := kind, errStart := pos, errPos := pos }, pending := [], responses := [] }

/-- The last response and the cursor after an outcome. -/
def lastAnswer : Host.Outcome State Fault Refusal → Option (Response × Nat)
  | .next s =>
    match s.responses.getLast?, s.block with
    | some r, some b => some (r, b.pos)
    | _, _ => none
  | .fault _ => none
  | .refused _ => none

/-- What the command word `w` answers at `pos` of `bytes`, and the cursor after it, in one step. -/
def answer (bytes : List Byte) (pos : Nat) (w : Command) : Option (Response × Nat) :=
  lastAnswer (step ((stateAt bytes pos).withFetchWord 32 w.toNat))

theorem ready_stateAt (bytes : List Byte) (pos : Nat) : (stateAt bytes pos).Ready (blockAt bytes pos) := ⟨rfl, rfl⟩

/-! ### Ill-formed terms: an operand of 25 bits (R62) -/

theorem test_wf_readBits_refused : (Instr.readBits 16777216).wf = false := by decide
theorem test_wf_readByteArray_refused : (Instr.readByteArray 16777216).wf = false := by decide
theorem test_wf_readBytesForBits_refused : (Instr.readBytesForBits 16777216).wf = false := by decide
theorem test_wf_readAngle_refused : (Instr.readAngle 16777216).wf = false := by decide

/-! ### Decoding: words written out from R61 and the opcode column of R63 -/

theorem test_decode_nextBit : decode (0b00000001#8 ++ 0#24) = .ok .nextBit := by rfl
theorem test_decode_readBits : decode (0b00000010#8 ++ 0b000000000000000000100001#24) = .ok (.readBits 33) := by rfl
theorem test_decode_remaining : decode (0b00000011#8 ++ 0#24) = .ok .remaining := by rfl
theorem test_decode_readByteArray :
    decode (0b00000100#8 ++ 0b100000000000000000000001#24) = .ok (.readByteArray 8388609) := by rfl
theorem test_decode_readBytesForBits :
    decode (0b00000101#8 ++ 0b000000000000000000001100#24) = .ok (.readBytesForBits 12) := by rfl
theorem test_decode_readBitVar : decode (0b00010000#8 ++ 0#24) = .ok .readBitVar := by rfl
theorem test_decode_readVarUInt32 : decode (0b00010001#8 ++ 0#24) = .ok .readVarUInt32 := by rfl
theorem test_decode_readVarUInt64 : decode (0b00010010#8 ++ 0#24) = .ok .readVarUInt64 := by rfl
theorem test_decode_readVarSInt : decode (0b00010011#8 ++ 0#24) = .ok .readVarSInt := by rfl
theorem test_decode_readFieldPathBitVar : decode (0b00010100#8 ++ 0#24) = .ok .readFieldPathBitVar := by rfl
theorem test_decode_readLittleEndian32 : decode (0b00100000#8 ++ 0#24) = .ok .readLittleEndian32 := by rfl
theorem test_decode_readLittleEndian64 : decode (0b00100001#8 ++ 0#24) = .ok .readLittleEndian64 := by rfl
theorem test_decode_readFloat : decode (0b00100010#8 ++ 0#24) = .ok .readFloat := by rfl
theorem test_decode_readString : decode (0b00100011#8 ++ 0#24) = .ok .readString := by rfl
theorem test_decode_readAngle : decode (0b00110000#8 ++ 0b000000000000000000001000#24) = .ok (.readAngle 8) := by rfl
theorem test_decode_readNormal : decode (0b00110001#8 ++ 0#24) = .ok .readNormal := by rfl
theorem test_decode_read3fNormal : decode (0b00110010#8 ++ 0#24) = .ok .read3fNormal := by rfl
theorem test_decode_readCoord : decode (0b00110011#8 ++ 0#24) = .ok .readCoord := by rfl

/-- R65: the edges of every reserved range of opcodes. -/
theorem test_decode_reserved :
    ([0x00, 0x06, 0x0F, 0x15, 0x1F, 0x24, 0x2F, 0x34, 0xFF] : List (BitVec 8)).all
      (fun op => decodeTableWord 32 ((op ++ 0#24 : Command).toNat) == none) = true := by decide

/-- R64: one reserved operand bit, the lowest or the highest, makes an operand-less word illegal. -/
theorem test_decode_reserved_operand :
    decodeTableWord 32 0x01000001 = none ∧ decodeTableWord 32 0x33800000 = none := by decide

/-! ### One step, by the vectors of 95_test_vectors.md (named in each comment) -/

/-- CUR-1. -/
theorem test_nextBit_lsb_first :
    answer [0x02] 0 0x01000000 = some (.ok (.bit false), 1) ∧ answer [0x02] 1 0x01000000 = some (.ok (.bit true), 2) := by
  decide

/-- 1.7. -/
theorem test_nextBit_empty : answer [] 0 0x01000000 = some (.err 1 0 0, 0) := by decide

/-- CUR-2 and CUR-7. -/
theorem test_readBits_across_bytes :
    answer [0xB5, 0x01] 3 0x02000006 = some (.ok (.unsigned 54), 9) ∧ answer [0xFF] 3 0x02000009 = some (.err 1 3 8, 8) := by
  decide

/-- CUR-3 and CUR-5. -/
theorem test_readBits_full_width :
    answer [0x12, 0x34, 0x56, 0x78, 0x9A] 4 0x02000020 = some (.ok (.unsigned 0xA7856341), 36) ∧
      answer [0xFF] 0 0x02000021 = some (.err 2 0 0, 0) := by
  decide

/-- CUR-8. -/
theorem test_remaining : answer [0xFF] 3 0x03000000 = some (.ok (.natural 5), 3) := by decide

/-- IF-1, IF-5: answered while faulted; another command is not. -/
theorem test_remaining_faulted :
    lastAnswer (exec .remaining (failedAt [0xFF] 0 4)) = some (.ok (.natural 8), 0) ∧
      lastAnswer (exec .nextBit (failedAt [0xFF] 0 4)) = some (.faulted 4 0 0, 0) := by
  decide

/-- CUR-9 and CUR-10. -/
theorem test_readByteArray_partial :
    answer [0x41, 0x42, 0x07] 4 0x04000003 = some (.ok (.bytes [0x24, 0x74, 0x00]), 24) ∧
      answer [0xAA] 0 0x04000002 = some (.err 1 0 8, 8) := by
  decide

/-- CUR-11 and CUR-13. -/
theorem test_readByteArray_short :
    answer [0xFF] 4 0x04000002 = some (.err 1 4 8, 8) ∧
      lastAnswer (exec (.readByteArray 3) (stateAt [0xFF] 0)) = some (.err 1 0 8, 8) := by
  decide

/-- CUR-14. -/
theorem test_readBytesForBits : answer [0xFF, 0xFF] 0 0x0500000C = some (.ok (.bytes [0xFF, 0x0F]), 12) := by decide

/-- CUR-15. -/
theorem test_readBytesForBits_no_clamp : answer [0xFF] 0 0x05000009 = some (.err 1 0 8, 8) := by decide

/-- 1.5, tags 01 and 10. -/
theorem test_readBitVar_short_tags :
    answer [0x93, 0x02] 0 0x10000000 = some (.ok (.unsigned 0xA3), 10) ∧
      answer [0x21, 0x20] 0 0x10000000 = some (.ok (.unsigned 0x801), 14) := by
  decide

/-- 1.5, tag 11, and VAR-1. -/
theorem test_readBitVar_long_tag :
    answer [0xFF, 0xFF, 0xFF, 0xFF, 0x03] 0 0x10000000 = some (.ok (.unsigned 0xFFFFFFFF), 34) ∧
      answer [0x13] 0 0x10000000 = some (.err 1 0 8, 8) := by
  decide

/-- VAR-9 and VAR-7. -/
theorem test_readVarUInt32 :
    answer [0xAC, 0x02] 0 0x11000000 = some (.ok (.unsigned 300), 16) ∧
      answer [0xFF, 0x00] 0 0x11000000 = some (.ok (.unsigned 127), 16) := by
  decide

/-- VAR-5 and VAR-8. -/
theorem test_readVarUInt32_fails :
    answer [0x80, 0x80, 0x80, 0x80, 0x10] 0 0x11000000 = some (.err 3 0 40, 40) ∧
      answer [0x80, 0x80] 0 0x11000000 = some (.err 1 0 16, 16) := by
  decide

/-- VAR-10 and VAR-13. -/
theorem test_readVarUInt64 :
    answer [0xFF, 0xFF, 0xFF, 0xFF, 0xFF, 0xFF, 0xFF, 0xFF, 0xFF, 0x01] 0 0x12000000 =
        some (.ok (.unsigned 0xFFFFFFFFFFFFFFFF), 80) ∧
      answer [0x80, 0x80, 0x80, 0x80, 0x10] 0 0x12000000 = some (.ok (.unsigned 4294967296), 40) := by
  decide

/-- VAR-11 and VAR-12. -/
theorem test_readVarUInt64_malformed :
    answer [0xFF, 0xFF, 0xFF, 0xFF, 0xFF, 0xFF, 0xFF, 0xFF, 0xFF, 0x02] 0 0x12000000 = some (.err 3 0 80, 80) ∧
      answer [0xFF, 0xFF, 0xFF, 0xFF, 0xFF, 0xFF, 0xFF, 0xFF, 0xFF, 0xFF] 0 0x12000000 = some (.err 3 0 80, 80) := by
  decide

/-- VAR-18 and VAR-19. -/
theorem test_readVarSInt :
    answer [0x7F] 0 0x13000000 = some (.ok (.signed (-64)), 8) ∧
      answer [0x80, 0x01] 0 0x13000000 = some (.ok (.signed 64), 16) := by
  decide

/-- VAR-20 and VAR-21: the logical shift. -/
theorem test_readVarSInt_extremes :
    answer [0xFE, 0xFF, 0xFF, 0xFF, 0x0F] 0 0x13000000 = some (.ok (.signed 2147483647), 40) ∧
      answer [0xFF, 0xFF, 0xFF, 0xFF, 0x0F] 0 0x13000000 = some (.ok (.signed (-2147483648)), 40) := by
  decide

/-- VAR-22, VAR-23 and 1.8 for the prefix 001. -/
theorem test_readFieldPath_short :
    answer [0x07] 0 0x14000000 = some (.ok (.unsigned 3), 3) ∧ answer [0x16] 0 0x14000000 = some (.ok (.unsigned 5), 6) ∧
      answer [0xFC, 0x1F] 0 0x14000000 = some (.ok (.unsigned 1023), 13) := by
  decide

/-- 1.8 for the prefixes 0001 and 0000, and VAR-27. -/
theorem test_readFieldPath_long :
    answer [0xF8, 0xFF, 0x1F] 0 0x14000000 = some (.ok (.unsigned 131071), 21) ∧
      answer [0x80, 0x67, 0x45, 0x23, 0x01] 0 0x14000000 = some (.ok (.unsigned 0x12345678), 35) ∧
      answer [0x10, 0x00, 0x00] 0 0x14000000 = some (.err 1 0 24, 24) := by
  decide

/-- RAW-2 and RAW-4. -/
theorem test_readLittleEndian32 :
    answer [0x7D, 0x6F, 0x5E, 0x4D, 0x04] 3 0x20000000 = some (.ok (.word32 0x89ABCDEF), 35) ∧
      answer [0xFF, 0xFF, 0xFF, 0xFF] 4 0x20000000 = some (.ok (.word32 0x0FFFFFFF), 32) := by
  decide

/-- RAW-5 and RAW-6, and the signed reading of RAW-3. -/
theorem test_readLittleEndian32_end :
    answer [0xFF, 0xFF, 0xFF] 0 0x20000000 = some (.err 1 0 24, 24) ∧
      answer [0xFF, 0xFF] 0 0x20000000 = some (.err 1 0 16, 16) ∧
      (Value.word32 0x80000000).signedReading = some (-2147483648) := by
  decide

/-- RAW-7. -/
theorem test_readLittleEndian64 :
    answer [0x01, 0, 0, 0, 0, 0, 0, 0x80] 0 0x21000000 = some (.ok (.word64 0x8000000000000001), 64) ∧
      (Value.word64 0x8000000000000001).signedReading = some (-9223372036854775807) := by
  decide

/-- RAW-9. -/
theorem test_readLittleEndian64_partial :
    answer [0xFF, 0xFF, 0xFF, 0xFF, 0xFF, 0xFF, 0xFF, 0xFF] 1 0x21000000 =
      some (.ok (.word64 0x7FFFFFFFFFFFFFFF), 64) := by
  decide

/-- RAW-10 and RAW-11. -/
theorem test_readFloat :
    answer [0x00, 0x00, 0x80, 0x3F] 0 0x22000000 = some (.ok (.floatBits 0x3F800000), 32) ∧
      answer [0x00, 0x00, 0xC0, 0x7F] 0 0x22000000 = some (.ok (.floatBits 0x7FC00000), 32) := by
  decide

/-- RAW-13 and RAW-16. -/
theorem test_readString :
    answer [0x48, 0x69, 0x00, 0x41] 0 0x23000000 = some (.ok (.string [0x48, 0x69]), 24) ∧
      answer [0x11, 0x04, 0x00] 4 0x23000000 = some (.ok (.string [0x41]), 20) := by
  decide

/-- RAW-14 and RAW-15. -/
theorem test_readString_ends :
    answer [0x00] 0 0x23000000 = some (.ok (.string []), 8) ∧ answer [0x41, 0x42] 0 0x23000000 = some (.err 1 0 16, 16) := by
  decide

/-- QNT-2 and QNT-4. -/
theorem test_readAngle :
    answer [0xFF] 0 0x30000008 = some (.ok (.quantized { neg := false, mag := 11475 / 32 }), 8) ∧
      answer [0x00, 0x00, 0x40, 0x00] 0 0x30000020 = some (.ok (.quantized { neg := false, mag := 45 / 128 }), 32) := by
  decide +kernel

/-- QNT-6, QNT-7 and QNT-8. -/
theorem test_readAngle_ends :
    answer [0x01] 0 0x30000000 = some (.ok (.quantized { neg := false, mag := 0 }), 0) ∧
      answer [0x01] 0 0x30000021 = some (.err 2 0 0, 0) ∧ answer [0x00] 0 0x30000009 = some (.err 1 0 8, 8) := by
  decide +kernel

/-- QNT-10 and QNT-11. -/
theorem test_readNormal :
    answer [0xFE, 0x07] 0 0x31000000 = some (.ok (.quantized { neg := false, mag := 1023 / 2047 }), 12) ∧
      answer [0x01, 0x00] 0 0x31000000 = some (.ok (.quantized { neg := true, mag := 0 }), 12) := by
  decide +kernel

/-- QNT-15 and QNT-16. -/
theorem test_read3fNormal_one_component :
    answer [0xF9, 0x1F] 0 0x32000000 =
        some (.ok (.normal3 { neg := false, mag := 1023 / 2047 } { neg := false, mag := 0 }
          { neg := false, sq := 3143680 / 4190209 }), 15) ∧
      answer [0x06, 0x40] 0 0x32000000 =
        some (.ok (.normal3 { neg := false, mag := 0 } { neg := true, mag := 0 } { neg := true, sq := 1 }), 15) := by
  decide +kernel

/-- QNT-18 and QNT-19. -/
theorem test_read3fNormal_both_components :
    answer [0xFB, 0xFF, 0xFF, 0x07] 0 0x32000000 =
        some (.ok (.normal3 { neg := false, mag := 1 } { neg := true, mag := 1 } { neg := true, sq := 0 }), 27) ∧
      answer [0x03] 0 0x32000000 = some (.err 1 0 8, 8) := by
  decide +kernel

/-- QNT-20 and QNT-23. -/
theorem test_readCoord :
    answer [0x0F, 0x00, 0x20] 0 0x33000000 = some (.ok (.quantized { neg := true, mag := 5 / 2 }), 22) ∧
      answer [0x1D, 0x03, 0x00] 0 0x33000000 = some (.ok (.quantized { neg := true, mag := 100 }), 17) := by
  decide +kernel

/-- 1.6, QNT-22 and QNT-25. -/
theorem test_readCoord_zero_and_fraction :
    answer [0x00] 0 0x33000000 = some (.ok (.quantized { neg := false, mag := 0 }), 2) ∧
      answer [0x82] 0 0x33000000 = some (.ok (.quantized { neg := false, mag := 1 / 2 }), 8) ∧
      answer [0x01] 0 0x33000000 = some (.err 1 0 8, 8) := by
  decide +kernel

/-- IF-1 and IF-3: an illegal word writes the record once. -/
theorem test_illegal_word :
    answer [0xFF] 0 0x00000000 = some (.err 4 0 0, 0) ∧
      step ((failedAt [0xFF] 3 4).withFetchWord 32 0xFF000000) =
        .next { failedAt [0xFF] 3 4 with responses := [.err 4 3 3] } :=
  ⟨by decide, rfl⟩

/-- IF-6: LOAD clears the record. -/
theorem test_load_clears :
    step { failedAt [] 0 1 with pending := [.load [0x2A]] } = .next (stateAt [0x2A] 0) := rfl

/-! ### The assembly language (R68) -/

theorem test_assemble_operand_forms :
    assembleLine "ReadBits 0x21 ; too wide".toList = .ok 0x02000021 ∧
      assembleLine "readangle\t8".toList = .ok 0x30000008 := by
  decide +kernel

theorem test_assemble_refusals :
    assembleLine "SEEK 3".toList = .error .unknownMnemonic ∧ assembleLine "READBITS".toList = .error .missingOperand ∧
      assembleLine "NEXTBIT 0".toList = .error .unexpectedOperand ∧
      assembleLine "READBYTEARRAY 16777216".toList = .error .operandOutOfRange := by
  decide +kernel

theorem test_disassemble :
    disassemble 0x0500000C = "READBYTESFORBITS 12".toList ∧ disassemble 0x33000000 = "READCOORD".toList ∧
      disassemble 0x01ABCDEF = ".word 0x01ABCDEF".toList := by
  decide +kernel

/-! ### Floating-point delivery (R188) -/

theorem test_deliver_angle :
    deliverFloats (.quantized { neg := false, mag := 90 }) = [Config.quantFloat { neg := false, mag := 90 }] := rfl

theorem test_deliver_float_unchanged : deliverFloats (.floatBits 0x7FC00000) = [] := rfl

/-! ### Witnesses: for every statement with hypotheses, values that meet them, one theorem for each clause at a boundary of its range -/

/-- DecodeOfEncodeIsTheCommand, EncodeOfDecodeIsTheWord: the largest operand. -/
theorem witness_largest_operand :
    (Instr.readBits 16777215).wf = true ∧ decode 0x02FFFFFF = .ok (.readBits 16777215) := ⟨by decide, rfl⟩

/-- StepPerformsTheDecodedCommand. -/
theorem witness_step :
    decode 0x01000000 = .ok .nextBit ∧ ((stateAt [0x02] 0).withFetchWord 32 0x01000000).pending = [.command 0x01000000] :=
  ⟨rfl, rfl⟩

/-- IllegalWordRaisesIllegalCommand, both clauses. -/
theorem witness_illegal :
    decode 0x01000001 = .error (.reservedOperandBits 1 1) ∧
      ((stateAt [0xFF] 8).withFetchWord 32 0x01000001).pending = [.command 0x01000001] ∧
      ((stateAt [0xFF] 8).withFetchWord 32 0x01000001).block = some (blockAt [0xFF] 8) ∧ (blockAt [0xFF] 8).err = 0 :=
  ⟨rfl, rfl, rfl, rfl⟩

theorem witness_illegal_faulted :
    ((failedAt [0xFF] 8 1).withFetchWord 32 0x01000001).pending = [.command 0x01000001] ∧
      ∃ b, (failedAt [0xFF] 8 1).block = some b ∧ b.err ≠ 0 := ⟨rfl, _, rfl, by decide⟩

/-- UnloadedBlockRefusesEveryWord. -/
theorem witness_unloaded :
    (State.unloaded.withFetchWord 32 0).block = none ∧ (State.unloaded.withFetchWord 32 0).pending = [.command 0] :=
  ⟨rfl, rfl⟩

/-- IdleHostMeansNoStep. -/
theorem witness_idle : (stateAt [0x02] 0).pending = [] := rfl

/-- LoadBindsTheBytesAndResets: a byte and its last bit. -/
theorem witness_load :
    ({ State.unloaded with pending := [.load [0x80]] } : State).pending = [.load [0x80]] ∧ 0 < [0x80].length ∧
      7 / 8 < [0x80].length := by
  decide

/-- CanonicalBuffersThatReadAlikeAreEqual. -/
theorem witness_canonical : Memory.wf 2 [(1, 0x80)] = true := by decide

/-- EveryStepKeepsTheInvariant: a faulted state, which is about to be loaded. -/
theorem witness_invariant :
    ({ failedAt [0x02] 8 1 with pending := [.load [0x01]] } : State).Inv ∧
      ∃ t, step { failedAt [0x02] 8 1 with pending := [.load [0x01]] } = .next t := by
  refine ⟨?_, _, rfl⟩
  rintro b ⟨⟩
  constructor <;> decide

/-- EveryCommandAnswersOnceAndOnlyMovesForward: at the end of the buffer. -/
theorem witness_answers_once :
    ((stateAt [0x02] 8).withFetchWord 32 0x01000000).pending = [.command 0x01000000] ∧
      ((stateAt [0x02] 8).withFetchWord 32 0x01000000).block = some (blockAt [0x02] 8) ∧
      (blockAt [0x02] 8).pos ≤ (blockAt [0x02] 8).buf.bits ∧
      ∃ t, step ((stateAt [0x02] 8).withFetchWord 32 0x01000000) = .next t :=
  ⟨rfl, rfl, by decide, _, rfl⟩

/-- EveryCommandSucceedsOrIsCaptured, and the hypotheses that the statements on each command share: the first bit and the end. -/
theorem witness_ready :
    (stateAt [0x02] 0).Ready (blockAt [0x02] 0) ∧ (blockAt [0x02] 0).pos ≤ (blockAt [0x02] 0).buf.bits ∧
      (stateAt [0x02] 8).Ready (blockAt [0x02] 8) ∧ (blockAt [0x02] 8).pos ≤ (blockAt [0x02] 8).buf.bits :=
  ⟨ready_stateAt _ _, by decide, ready_stateAt _ _, by decide⟩

/-- FaultedBlockAnswersOnlyRemaining: REMAINING, another command and an illegal word, on one faulted block. -/
theorem witness_faulted :
    (∃ b, (failedAt [0x02] 3 2).block = some b ∧ b.err ≠ 0) ∧ decode 0x03000000 = .ok .remaining ∧
      decode 0x01000000 = .ok .nextBit ∧ decode 0 = .error (.reservedOpcode 0) := ⟨⟨_, rfl, by decide⟩, rfl, rfl, rfl⟩

/-- ErrorRecordStaysUntilLoad: one command word, then a LOAD that the run of one step does not reach. -/
theorem witness_record_stays :
    let s := { failedAt [0x02] 3 2 with pending := [.command 0x01000000, .load []] }
    (∃ b, s.block = some b ∧ b.err ≠ 0) ∧ (∀ a ∈ s.pending.take 1, ∃ w, a = .command w) ∧
      ∃ t, core.run 1 s = .next t := by
  refine ⟨⟨_, rfl, by decide⟩, ?_, _, rfl⟩
  simp

/-- ResponseDependsOnBufferAndCursorAlone: two instances that differ in what they answered before. -/
theorem witness_same_cursor :
    (stateAt [0x02] 8).Ready (blockAt [0x02] 8) ∧
      ({ stateAt [0x02] 8 with responses := [.ok (.bit false)] } : State).Ready (blockAt [0x02] 8) :=
  ⟨ready_stateAt _ _, rfl, rfl⟩

/-- InterleavedInstancesRunAsAlone: two instances over the same bytes take turns. -/
theorem witness_interleaved :
    let s := (stateAt [0x02] 0).withFetchWord 32 0x01000000
    (∃ all', runSchedule [1, 0] [s, s] = some all') ∧ [s, s][1]? = some s := ⟨⟨_, rfl⟩, rfl⟩

/-- EmptyBufferEndsAtOnce. -/
theorem witness_empty_buffer :
    (stateAt [] 0).block = some (Block.load []) ∧ needsABit (.readBits 1) = true ∧ zeroSizeRead (.readBits 0) = true :=
  ⟨rfl, by decide, by decide⟩

/-- LegalWordsAreThoseOfTheOpcodeMap: both clauses where they meet. -/
theorem witness_legal_words : legalWord 0x33000000 ∧ ¬ legalWord 0x33000001 ∧ ¬ legalWord 0x34000000 := by
  unfold legalWord
  decide

/-- NextBitReturnsTheBitAtTheCursor: the last bit, and the end. -/
theorem witness_nextBit :
    (blockAt [0x80] 7).pos < (blockAt [0x80] 7).buf.bits ∧ (blockAt [0x80] 8).pos = (blockAt [0x80] 8).buf.bits := by
  decide

/-- ReadBitsReturnsTheField: 32 bits that end the buffer, one bit too few, and width 33. -/
theorem witness_readBits :
    (32 ≤ 32 ∧ (blockAt [1, 2, 3, 4] 0).pos + 32 ≤ (blockAt [1, 2, 3, 4] 0).buf.bits) ∧
      (32 ≤ 32 ∧ (blockAt [1, 2, 3, 4] 1).buf.bits < (blockAt [1, 2, 3, 4] 1).pos + 32) ∧ 32 < 33 := by
  decide

/-- ReadByteArrayReadsGroupsAndAPartialLast: full groups to the end, a last group of one bit, and none for it. -/
theorem witness_readByteArray :
    (blockAt [1, 2] 0).pos + 8 * 2 ≤ (blockAt [1, 2] 0).buf.bits ∧
      (1 ≤ 2 ∧ (blockAt [1, 2] 7).pos + 8 * (2 - 1) < (blockAt [1, 2] 7).buf.bits ∧
        (blockAt [1, 2] 7).buf.bits < (blockAt [1, 2] 7).pos + 8 * 2) ∧
      (1 ≤ 2 ∧ (blockAt [1, 2] 8).buf.bits ≤ (blockAt [1, 2] 8).pos + 8 * (2 - 1)) := by
  decide

/-- ReadBytesForBitsReadsExactlyItsBits: the bits that remain, and one more. -/
theorem witness_readBytesForBits :
    (blockAt [1, 2] 4).pos + 12 ≤ (blockAt [1, 2] 4).buf.bits ∧ (blockAt [1, 2] 4).buf.bits < (blockAt [1, 2] 4).pos + 13 := by
  decide

/-- ReadsOfMixedWidthCompose: 1 + 31 bits that end the buffer. -/
theorem witness_compose : 1 + 31 ≤ 32 ∧ (blockAt [1, 2, 3, 4] 0).pos + (1 + 31) ≤ (blockAt [1, 2, 3, 4] 0).buf.bits := by
  decide

/-- ReadBitVarReadsTheTaggedValue: a form of 10 bits that ends the buffer, and one of 34 bits with 33 left. -/
theorem witness_readBitVar :
    (blockAt [0x00, 0x04] 6).pos + bitVarLength (blockAt [0x00, 0x04] 6).buf 6 ≤ (blockAt [0x00, 0x04] 6).buf.bits ∧
      (blockAt [0x00, 0x18, 0, 0, 0] 7).buf.bits <
        (blockAt [0x00, 0x18, 0, 0, 0] 7).pos + bitVarLength (blockAt [0x00, 0x18, 0, 0, 0] 7).buf 7 := by
  decide

/-- ReadVarUInt32ReadsUpToFiveGroups, ReadVarSIntDecodesZigZag: five groups with the largest and the first too large data,
five that continue, four and then the end. -/
theorem witness_varUInt32 :
    (5 ≤ 5 ∧ endsAfter (blockAt [0xFF, 0xFF, 0xFF, 0xFF, 0x0F] 0).buf 0 5 ∧ 0 + 8 * 5 ≤ (blockAt [0xFF, 0xFF, 0xFF, 0xFF, 0x0F] 0).buf.bits ∧
        (5 = 5 → fieldAt (blockAt [0xFF, 0xFF, 0xFF, 0xFF, 0x0F] 0).buf (0 + 8 * (5 - 1)) 7 < 16)) ∧
      (endsAfter (blockAt [0x80, 0x80, 0x80, 0x80, 0x10] 0).buf 0 5 ∧ 0 + 8 * 5 ≤ (blockAt [0x80, 0x80, 0x80, 0x80, 0x10] 0).buf.bits ∧
        16 ≤ fieldAt (blockAt [0x80, 0x80, 0x80, 0x80, 0x10] 0).buf (0 + 8 * (5 - 1)) 7) ∧
      (allContinue (blockAt [0xFF, 0xFF, 0xFF, 0xFF, 0xFF] 0).buf 0 5 ∧ 0 + 8 * 5 ≤ (blockAt [0xFF, 0xFF, 0xFF, 0xFF, 0xFF] 0).buf.bits) ∧
      (4 < 5 ∧ allContinue (blockAt [0xFF, 0xFF, 0xFF, 0xFF] 0).buf 0 4 ∧ 0 + 8 * 4 ≤ (blockAt [0xFF, 0xFF, 0xFF, 0xFF] 0).buf.bits ∧
        (blockAt [0xFF, 0xFF, 0xFF, 0xFF] 0).buf.bits < 0 + 8 * 4 + 8) := by
  unfold endsAfter allContinue
  decide

/-- ReadVarUInt64ReadsUpToTenGroups: the same four boundaries. -/
theorem witness_varUInt64 :
    let full := (blockAt [0xFF, 0xFF, 0xFF, 0xFF, 0xFF, 0xFF, 0xFF, 0xFF, 0xFF, 0x01] 0).buf
    let large := (blockAt [0x80, 0x80, 0x80, 0x80, 0x80, 0x80, 0x80, 0x80, 0x80, 0x02] 0).buf
    let unended := (blockAt [0xFF, 0xFF, 0xFF, 0xFF, 0xFF, 0xFF, 0xFF, 0xFF, 0xFF, 0xFF] 0).buf
    let short := (blockAt [0xFF, 0xFF, 0xFF, 0xFF, 0xFF, 0xFF, 0xFF, 0xFF, 0xFF] 0).buf
    (10 ≤ 10 ∧ endsAfter full 0 10 ∧ 0 + 8 * 10 ≤ full.bits ∧ (10 = 10 → fieldAt full (0 + 8 * (10 - 1)) 7 < 2)) ∧
      (endsAfter large 0 10 ∧ 0 + 8 * 10 ≤ large.bits ∧ 2 ≤ fieldAt large (0 + 8 * (10 - 1)) 7) ∧
      (allContinue unended 0 10 ∧ 0 + 8 * 10 ≤ unended.bits) ∧
      (9 < 10 ∧ allContinue short 0 9 ∧ 0 + 8 * 9 ≤ short.bits ∧ short.bits < 0 + 8 * 9 + 8) := by
  unfold endsAfter allContinue
  decide

/-- ZigZagIsABijection: the ends of both ranges. -/
theorem witness_zigZag :
    2 ^ 32 - 1 < 2 ^ 32 ∧ unzigzag (2 ^ 32 - 1) = unzigzag (2 ^ 32 - 1) ∧ (-2 ^ 31 ≤ (-2 ^ 31 : Int)) ∧ ((-2 ^ 31 : Int) < 2 ^ 31) := by
  decide

/-- ReadFieldPathReadsTheSelectedWidth: each prefix, its value ending the buffer or lacking one bit. -/
theorem witness_fieldPath :
    (pathPrefix (blockAt [0x20] 5).buf 5 0 ∧ 5 + (pathPrefixLength 0 + pathWidth 0) ≤ (blockAt [0x20] 5).buf.bits) ∧
      (pathPrefix (blockAt [0x10] 3).buf 3 1 ∧ (blockAt [0x10] 3).buf.bits < 3 + (pathPrefixLength 1 + pathWidth 1)) ∧
      (pathPrefix (blockAt [0x20, 0] 3).buf 3 2 ∧ 3 + (pathPrefixLength 2 + pathWidth 2) ≤ (blockAt [0x20, 0] 3).buf.bits) ∧
      (pathPrefix (blockAt [0x40, 0, 0] 3).buf 3 3 ∧ 3 + (pathPrefixLength 3 + pathWidth 3) ≤ (blockAt [0x40, 0, 0] 3).buf.bits) ∧
      (pathPrefix (blockAt [0, 0, 0, 0, 0] 6).buf 6 4 ∧
        (blockAt [0, 0, 0, 0, 0] 6).buf.bits < 6 + (pathPrefixLength 4 + pathWidth 4)) := by
  unfold pathPrefix
  decide

/-- The little-endian commands: all bits, one bit of the last byte, and none. -/
theorem witness_littleEndian32 :
    (blockAt [1, 2, 3, 4] 0).pos + 8 * 4 ≤ (blockAt [1, 2, 3, 4] 0).buf.bits ∧
      ((blockAt [1, 2, 3, 4] 7).pos + 8 * (4 - 1) < (blockAt [1, 2, 3, 4] 7).buf.bits ∧
        (blockAt [1, 2, 3, 4] 7).buf.bits < (blockAt [1, 2, 3, 4] 7).pos + 8 * 4) ∧
      (blockAt [1, 2, 3, 4] 8).buf.bits ≤ (blockAt [1, 2, 3, 4] 8).pos + 8 * (4 - 1) := by
  decide

theorem witness_littleEndian64 :
    (blockAt [1, 2, 3, 4, 5, 6, 7, 8] 0).pos + 8 * 8 ≤ (blockAt [1, 2, 3, 4, 5, 6, 7, 8] 0).buf.bits ∧
      ((blockAt [1, 2, 3, 4, 5, 6, 7, 8] 7).pos + 8 * (8 - 1) < (blockAt [1, 2, 3, 4, 5, 6, 7, 8] 7).buf.bits ∧
        (blockAt [1, 2, 3, 4, 5, 6, 7, 8] 7).buf.bits < (blockAt [1, 2, 3, 4, 5, 6, 7, 8] 7).pos + 8 * 8) ∧
      (blockAt [1, 2, 3, 4, 5, 6, 7, 8] 8).buf.bits ≤ (blockAt [1, 2, 3, 4, 5, 6, 7, 8] 8).pos + 8 * (8 - 1) := by
  decide

/-- ReadStringReadsToTheTerminator: a terminator that ends the buffer, and a string that the buffer ends. -/
theorem witness_string :
    ((∀ j, j < 1 → fieldAt (blockAt [0x48, 0x00] 0).buf (0 + 8 * j) 8 ≠ 0) ∧
        0 + 8 * (1 + 1) ≤ (blockAt [0x48, 0x00] 0).buf.bits ∧ fieldAt (blockAt [0x48, 0x00] 0).buf (0 + 8 * 1) 8 = 0) ∧
      ((∀ j, j < 1 → fieldAt (blockAt [0x48] 0).buf (0 + 8 * j) 8 ≠ 0) ∧ 0 + 8 * 1 ≤ (blockAt [0x48] 0).buf.bits ∧
        (blockAt [0x48] 0).buf.bits < 0 + 8 * (1 + 1)) := by
  decide

/-- ReadAngleScalesToDegrees has the clauses of ReadBitsReturnsTheField. AnglesAreMonotoneMultiplesBelow360: width 32 to the
end of the buffer, on a field and a larger one. -/
theorem witness_angle :
    32 ≤ 32 ∧ (blockAt [0, 0, 0, 0] 0).pos + 32 ≤ (blockAt [0, 0, 0, 0] 0).buf.bits ∧
      (blockAt [1, 0, 0, 0] 0).pos + 32 ≤ (blockAt [1, 0, 0, 0] 0).buf.bits ∧
      (∃ q, exec (.readAngle 32) (stateAt [1, 0, 0, 0] 0) =
        .next ((stateAt [1, 0, 0, 0] 0).succeeds (blockAt [1, 0, 0, 0] 0) 32 (.quantized q))) ∧
      fieldAt (blockAt [0, 0, 0, 0] 0).buf 0 32 < fieldAt (blockAt [1, 0, 0, 0] 0).buf 0 32 :=
  ⟨by decide, by decide, by decide, ⟨_, rfl⟩, by decide⟩

/-- ReadNormalReadsSignAndMagnitude: exactly 12 bits, and 11. -/
theorem witness_normal :
    (blockAt [0xF0, 0xFF] 4).pos + 12 ≤ (blockAt [0xF0, 0xFF] 4).buf.bits ∧
      (blockAt [0xF0, 0xFF] 5).buf.bits < (blockAt [0xF0, 0xFF] 5).pos + 12 := by
  decide

/-- Read3fNormalRebuildsZ: the bits of both components to the end of the buffer, and one too few. -/
theorem witness_normal3 :
    (blockAt [0x60, 0, 0, 0] 5).pos + normal3Length (blockAt [0x60, 0, 0, 0] 5).buf 5 ≤ (blockAt [0x60, 0, 0, 0] 5).buf.bits ∧
      (blockAt [0xC0, 0, 0, 0] 6).buf.bits < (blockAt [0xC0, 0, 0, 0] 6).pos + normal3Length (blockAt [0xC0, 0, 0, 0] 6).buf 6 := by
  decide

/-- Normals3HaveUnitLengthOrNoZ: a vector inside the circle and one on it. -/
theorem witness_normal3_length :
    (∃ k x y z, exec .read3fNormal (stateAt [0x04] 0) = .next ((stateAt [0x04] 0).succeeds (blockAt [0x04] 0) k (.normal3 x y z)) ∧
        x.mag ^ 2 + y.mag ^ 2 < 1) ∧
      ∃ k x y z, exec .read3fNormal (stateAt [0xFB, 0x3F, 0, 0] 0) =
          .next ((stateAt [0xFB, 0x3F, 0, 0] 0).succeeds (blockAt [0xFB, 0x3F, 0, 0] 0) k (.normal3 x y z)) ∧
        1 ≤ x.mag ^ 2 + y.mag ^ 2 :=
  ⟨⟨3, _, _, _, rfl, by decide +kernel⟩, ⟨27, _, _, _, rfl, by decide +kernel⟩⟩

/-- ReadCoordAddsItsParts: 22 bits that end the buffer, and 21. -/
theorem witness_coord :
    (blockAt [0x0C, 0, 0] 2).pos + coordLength (blockAt [0x0C, 0, 0] 2).buf 2 ≤ (blockAt [0x0C, 0, 0] 2).buf.bits ∧
      (blockAt [0x18, 0, 0] 3).buf.bits < (blockAt [0x18, 0, 0] 3).pos + coordLength (blockAt [0x18, 0, 0] 3).buf 3 := by
  decide

/-- CoordMagnitudesFollowTheFlags: with an integer part and without one. -/
theorem witness_coord_flags :
    (∃ k q, exec .readCoord (stateAt [0x01, 0, 0] 0) =
        .next ((stateAt [0x01, 0, 0] 0).succeeds (blockAt [0x01, 0, 0] 0) k (.quantized q))) ∧
      bitAt (blockAt [0x01, 0, 0] 0).buf 0 = true ∧
      (∃ k q, exec .readCoord (stateAt [0x06] 0) = .next ((stateAt [0x06] 0).succeeds (blockAt [0x06] 0) k (.quantized q))) ∧
      bitAt (blockAt [0x06] 0).buf 0 = false :=
  ⟨⟨17, _, rfl⟩, by decide, ⟨8, _, rfl⟩, by decide⟩

/-- AssemblerReadsTheDisassembly, both clauses. -/
theorem witness_assembler :
    (∃ i, decode 0x02FFFFFF = .ok i) ∧ ∃ e, decode 0x06000000 = .error e := ⟨⟨_, rfl⟩, ⟨_, rfl⟩⟩

end Sys2Proof.Tests
end

/-! ## The state's invariants

Three layers: canonical memories (R21), the bound every decoder keeps on its cursor and its detection position (R23, R226), and
what one host action can make of a block. The invariants are read off the last layer. -/

namespace Sys2Proof.Machine

/-! ### Canonical memories (log entry 3) -/

section Canonical
variable {len lo k : Nat} {v : Byte} {m m' : Memory}

theorem Memory.read_cons_self (k : Nat) (v : Byte) (m : Memory) : Memory.read ((k, v) :: m) k = v := by
  simp [Memory.read]

theorem Memory.read_cons_of_ne {a : Nat} (h : k ≠ a) : Memory.read ((k, v) :: m) a = Memory.read m a := by
  simp [Memory.read, h]

theorem Memory.wfFrom_cons_iff :
    Memory.wfFrom len lo ((k, v) :: m) = true ↔
      (lo ≤ k ∧ k < len ∧ v ≠ unlistedByte) ∧ Memory.wfFrom len (k + 1) m = true := by
  simp [Memory.wfFrom]

/-- Below its first address a canonical memory lists nothing. -/
theorem Memory.read_of_lt_of_wfFrom (h : Memory.wfFrom len lo m = true) {a : Nat} (ha : a < lo) :
    Memory.read m a = unlistedByte := by
  induction m generalizing lo with
  | nil => rfl
  | cons c rest ih =>
    obtain ⟨k, v⟩ := c
    obtain ⟨⟨hlo, -, -⟩, hrest⟩ := Memory.wfFrom_cons_iff.1 h
    rw [Memory.read_cons_of_ne (by omega)]
    exact ih hrest (by omega)

/-- The first address of a canonical memory is at or before the first one of any canonical memory that reads as it does. -/
theorem Memory.head_le_of_read_eq {k' : Nat} {v' : Byte} (h : Memory.wfFrom len lo ((k, v) :: m) = true)
    (h' : Memory.wfFrom len lo ((k', v') :: m') = true)
    (hread : ∀ a, a < len → Memory.read ((k, v) :: m) a = Memory.read ((k', v') :: m') a) : k ≤ k' := by
  obtain ⟨-, hm⟩ := Memory.wfFrom_cons_iff.1 h
  obtain ⟨⟨-, hlen', hv'⟩, -⟩ := Memory.wfFrom_cons_iff.1 h'
  by_contra hlt
  have hk := hread k' hlen'
  rw [Memory.read_cons_self, Memory.read_cons_of_ne (by omega),
    Memory.read_of_lt_of_wfFrom hm (by omega)] at hk
  exact hv' hk.symm

/-- A canonical memory that reads as the empty one is empty. -/
theorem Memory.eq_nil_of_read_eq (h : Memory.wfFrom len lo m = true)
    (hread : ∀ a, a < len → Memory.read m a = unlistedByte) : m = [] := by
  cases m with
  | nil => rfl
  | cons c rest =>
    obtain ⟨k, v⟩ := c
    obtain ⟨⟨-, hlen, hv⟩, -⟩ := Memory.wfFrom_cons_iff.1 h
    exact absurd ((Memory.read_cons_self k v rest).symm.trans (hread k hlen)) hv

/-- The canonical form is extensional from every address on. -/
theorem Memory.eq_of_read_eq (h : Memory.wfFrom len lo m = true) (h' : Memory.wfFrom len lo m' = true)
    (hread : ∀ a, a < len → Memory.read m a = Memory.read m' a) : m = m' := by
  induction m generalizing lo m' with
  | nil => exact (Memory.eq_nil_of_read_eq h' fun a ha => (hread a ha).symm).symm
  | cons c rest ih =>
    cases m' with
    | nil => exact Memory.eq_nil_of_read_eq h hread
    | cons c' rest' =>
      obtain ⟨k, v⟩ := c
      obtain ⟨k', v'⟩ := c'
      obtain rfl : k = k' :=
        le_antisymm (Memory.head_le_of_read_eq h h' hread)
          (Memory.head_le_of_read_eq h' h fun a ha => (hread a ha).symm)
      obtain ⟨⟨-, hlen, -⟩, hrest⟩ := Memory.wfFrom_cons_iff.1 h
      obtain ⟨-, hrest'⟩ := Memory.wfFrom_cons_iff.1 h'
      obtain rfl : v = v' := by
        simpa only [Memory.read_cons_self] using hread k hlen
      have htail : ∀ a, a < len → Memory.read rest a = Memory.read rest' a := by
        intro a ha
        by_cases hk : k = a
        · subst hk
          rw [Memory.read_of_lt_of_wfFrom hrest (by omega), Memory.read_of_lt_of_wfFrom hrest' (by omega)]
        · simpa only [Memory.read_cons_of_ne hk] using hread a ha
      rw [ih hrest hrest' htail]

end Canonical

/-- Settles O10: `Memory.eq_of_read_eq` from address 0 on. -/
theorem canonicalBuffersThatReadAlikeAreEqual : Obligations.CanonicalBuffersThatReadAlikeAreEqual := by
  intro len m m' h h' hread
  exact Memory.eq_of_read_eq h h' hread

/-! ### Where a decoder can end -/

/-- Where an error of a command that began at `start` is detected (R221, R222, R135, R226). -/
def DetectedAt (B : Buffer) (start : Nat) : ErrorKind → Nat → Prop
  | .endOfBuffer, q => q = B.bits
  | .invalidWidth, q => q = start
  | .malformedVarInt, q => q = start + 40 ∨ q = start + 80
  | .illegalCommand, q => q = start

/-- The results a read from `p` may have, as a part of a command that began at `start`: the cursor does not move back and stays
within the buffer, and an error is detected where its kind says. -/
inductive EndsWithin {α : Type} (B : Buffer) (start p : Nat) : EStateM.Result ErrorKind Nat α → Prop where
  | ok {a : α} {q : Nat} (forward : p ≤ q) (bound : q ≤ B.bits) : EndsWithin B start p (.ok a q)
  | error {e : ErrorKind} {q : Nat} (forward : p ≤ q) (bound : q ≤ B.bits) (detected : DetectedAt B start e q) :
      EndsWithin B start p (.error e q)

section EndsWithin
variable {α β : Type} {B : Buffer} {start p : Nat}

theorem endsWithin_pure (a : α) (hp : p ≤ B.bits) : EndsWithin B start p ((pure a : Read α).run p) :=
  .ok (le_refl p) hp

/-- Running out of bits is detected at the end of the buffer, whatever came before. -/
theorem endsWithin_endOfBuffer (hp : p ≤ B.bits) :
    EndsWithin B start p (.error .endOfBuffer B.bits : EStateM.Result ErrorKind Nat α) :=
  .error hp (le_refl _) rfl

/-- What a read from a later cursor may do, one from an earlier cursor may. -/
theorem EndsWithin.mono {q : Nat} {r : EStateM.Result ErrorKind Nat α} (hpq : p ≤ q) (h : EndsWithin B start q r) :
    EndsWithin B start p r := by
  cases h with
  | ok hqr hr => exact .ok (hpq.trans hqr) hr
  | error hqr hr hd => exact .error (hpq.trans hqr) hr hd

/-- Reads in sequence: the second goes on where the first stopped. -/
theorem endsWithin_bind {x : Read α} {f : α → Read β} (hx : EndsWithin B start p (x.run p))
    (hf : ∀ a q, q ≤ B.bits → EndsWithin B start q ((f a).run q)) : EndsWithin B start p ((x >>= f).run p) := by
  cases h : x.run p with
  | ok a q =>
    rw [h] at hx
    cases hx with
    | ok hpq hq =>
      rw [read_bind_ok h]
      exact (hf a q hq).mono hpq
  | error e q =>
    rw [h] at hx
    cases hx with
    | error hpq hq hd =>
      rw [read_bind_error h]
      exact .error hpq hq hd

/-- A read whose value is wrapped ends where the read does. -/
theorem endsWithin_map {x : Read α} (f : α → β) (hx : EndsWithin B start p (x.run p)) :
    EndsWithin B start p ((do return f (← x) : Read β).run p) :=
  endsWithin_bind hx fun _ _ hq => endsWithin_pure _ hq

/-! ### The shared operations -/

theorem takeBit_endsWithin (hp : p ≤ B.bits) : EndsWithin B start p ((takeBit B).run p) := by
  by_cases h : p < B.bits
  · rw [takeBit_ok h]
    exact .ok (by omega) h
  · obtain rfl : p = B.bits := by omega
    rw [takeBit_end hp]
    exact endsWithin_endOfBuffer hp

theorem readBits_endsWithin {n : Nat} (hn : n ≤ 32) (hp : p ≤ B.bits) :
    EndsWithin B start p ((readBits B n).run p) := by
  by_cases h : p + n ≤ B.bits
  · rw [readBits_ok hn h]
    exact .ok (by omega) h
  · rw [readBits_end hn hp (by omega)]
    exact endsWithin_endOfBuffer hp

/-- A width that may be over 32 is read first in its command, so InvalidWidth is detected at the start (R222). -/
theorem readBits_endsWithin_of_start (n : Nat) (hp : p ≤ B.bits) : EndsWithin B p p ((readBits B n).run p) := by
  by_cases hn : n ≤ 32
  · exact readBits_endsWithin hn hp
  · rw [readBits_wide (by omega)]
    exact .error (le_refl p) hp rfl

theorem readGroup_endsWithin (final : Bool) (hp : p ≤ B.bits) : EndsWithin B start p ((readGroup B final).run p) := by
  rw [readGroup_eq]
  exact endsWithin_map _ (readBits_endsWithin (by split <;> omega) hp)

theorem readByteArray_endsWithin (count : Nat) (hp : p ≤ B.bits) :
    EndsWithin B start p ((readByteArray B count).run p) := by
  induction count generalizing p with
  | zero => exact endsWithin_pure _ hp
  | succ left ih =>
    exact endsWithin_bind (readGroup_endsWithin _ hp) fun _ _ hq => endsWithin_map _ (ih hq)

theorem readBytesForBits_endsWithin (nbits : Nat) (hp : p ≤ B.bits) :
    EndsWithin B start p ((readBytesForBits B nbits).run p) := by
  by_cases h : p + nbits ≤ B.bits
  · rw [readBytesForBits_ok h]
    exact .ok (by omega) h
  · rw [readBytesForBits_end hp (by omega)]
    exact endsWithin_endOfBuffer hp

theorem readLittleEndian_endsWithin (m : Nat) (hp : p ≤ B.bits) :
    EndsWithin B start p ((readLittleEndian B m).run p) :=
  endsWithin_map _ (readByteArray_endsWithin m hp)

/-- The rounds outlast the buffer, so a string that ends in an error ends at the buffer's end (R164, log entry 10). -/
theorem readStringFuel_endsWithin {fuel : Nat} (hp : p ≤ B.bits) (hf : B.bits < p + 8 * fuel) :
    EndsWithin B start p ((readStringFuel B fuel).run p) := by
  induction fuel generalizing p with
  | zero => omega
  | succ fuel ih =>
    rw [readStringFuel]
    by_cases h : p + 8 ≤ B.bits
    · rw [read_bind_ok (readBits_ok (by omega) h)]
      refine EndsWithin.mono (q := p + 8) (by omega) ?_
      split
      case isTrue => exact endsWithin_pure _ h
      case isFalse => exact endsWithin_map _ (ih h (by omega))
    · rw [read_bind_error (readBits_end (by omega) hp (by omega))]
      exact endsWithin_endOfBuffer hp

theorem readString_endsWithin (hp : p ≤ B.bits) : EndsWithin B start p ((readString B).run p) :=
  readStringFuel_endsWithin hp (by unfold Buffer.bits; omega)

theorem readNormal_endsWithin (hp : p ≤ B.bits) : EndsWithin B start p ((readNormal B).run p) :=
  endsWithin_bind (takeBit_endsWithin hp) fun _ _ hq => endsWithin_map _ (readBits_endsWithin (by omega) hq)

/-- A value too large for its width needs the last group: the groups before it hold fewer bits than the width (R135). -/
theorem readVarUInt_endsWithin {G W : Nat} (hW : 7 * G < W + 7) (hG : G = 5 ∨ G = 10) (hp : p ≤ B.bits) :
    EndsWithin B p p ((readVarUInt B G W).run p) := by
  have malformed : p + 8 * G ≤ B.bits →
      EndsWithin B p p (.error .malformedVarInt (p + 8 * G) : EStateM.Result ErrorKind Nat Nat) := by
    intro h
    exact .error (by omega) h (by rcases hG with rfl | rfl; exacts [.inl rfl, .inr rfl])
  rcases varUInt_trichotomy B p G hp with ⟨g, hg, hb, he⟩ | ⟨hb, hc⟩ | ⟨g, hg, hb, hend, hc⟩
  · rw [readVarUInt_ends hg hb he]
    split
    case isTrue hlarge =>
      have hbits : W < 7 * g := (Nat.pow_lt_pow_iff_right (by decide)).1 (hlarge.trans_lt (groupsValue_lt B p g))
      obtain rfl : g = G := by omega
      exact malformed hb
    case isFalse => exact .ok (by omega) hb
  · rw [readVarUInt_unended hb hc]
    exact malformed hb
  · rw [readVarUInt_end hg hb hend hc]
    exact endsWithin_endOfBuffer hp

/-! ### The decoders of single commands -/

theorem readBitVar_endsWithin (hp : p ≤ B.bits) : EndsWithin B start p ((readBitVar B).run p) := by
  refine endsWithin_bind (readBits_endsWithin (by omega) hp) fun base q hq => ?_
  dsimp only
  split
  · exact endsWithin_map _ (readBits_endsWithin (by omega) hq)
  split
  · exact endsWithin_map _ (readBits_endsWithin (by omega) hq)
  split
  · exact endsWithin_map _ (readBits_endsWithin (by omega) hq)
  · exact endsWithin_pure _ hq

theorem readFieldPath_endsWithin (hp : p ≤ B.bits) : EndsWithin B start p ((readFieldPath B).run p) := by
  refine endsWithin_bind (takeBit_endsWithin hp) fun one q₁ hq₁ => ?_
  split
  · exact readBits_endsWithin (by omega) hq₁
  refine endsWithin_bind (takeBit_endsWithin hq₁) fun two q₂ hq₂ => ?_
  split
  · exact readBits_endsWithin (by omega) hq₂
  refine endsWithin_bind (takeBit_endsWithin hq₂) fun three q₃ hq₃ => ?_
  split
  · exact readBits_endsWithin (by omega) hq₃
  refine endsWithin_bind (takeBit_endsWithin hq₃) fun four q₄ hq₄ => ?_
  split
  · exact readBits_endsWithin (by omega) hq₄
  · exact readBits_endsWithin (by omega) hq₄

theorem readComponent_endsWithin (present : Bool) (hp : p ≤ B.bits) :
    EndsWithin B start p ((readComponent B present).run p) := by
  cases present with
  | true => exact readNormal_endsWithin hp
  | false => exact endsWithin_pure _ hp

theorem read3fNormal_endsWithin (hp : p ≤ B.bits) : EndsWithin B start p ((read3fNormal B).run p) :=
  endsWithin_bind (takeBit_endsWithin hp) fun hasX _ hq₁ =>
    endsWithin_bind (takeBit_endsWithin hq₁) fun hasY _ hq₂ =>
      endsWithin_bind (readComponent_endsWithin hasX hq₂) fun _ _ hq₃ =>
        endsWithin_bind (readComponent_endsWithin hasY hq₃) fun _ _ hq₄ =>
          endsWithin_map _ (takeBit_endsWithin hq₄)

theorem readCoordInt_endsWithin (present : Bool) (hp : p ≤ B.bits) :
    EndsWithin B start p ((readCoordInt B present).run p) := by
  cases present with
  | true => exact endsWithin_map _ (readBits_endsWithin (by omega) hp)
  | false => exact endsWithin_pure _ hp

theorem readCoordFrac_endsWithin (present : Bool) (hp : p ≤ B.bits) :
    EndsWithin B start p ((readCoordFrac B present).run p) := by
  cases present with
  | true => exact readBits_endsWithin (n := 5) (by omega) hp
  | false => exact endsWithin_pure _ hp

theorem readCoord_endsWithin (hp : p ≤ B.bits) : EndsWithin B start p ((readCoord B).run p) := by
  refine endsWithin_bind (takeBit_endsWithin hp) fun hasInt _ hq₁ => ?_
  refine endsWithin_bind (takeBit_endsWithin hq₁) fun hasFrac _ hq₂ => ?_
  split
  case isTrue => exact endsWithin_pure _ hq₂
  case isFalse =>
    exact endsWithin_bind (takeBit_endsWithin hq₂) fun _ _ hq₃ =>
      endsWithin_bind (readCoordInt_endsWithin hasInt hq₃) fun _ _ hq₄ =>
        endsWithin_map _ (readCoordFrac_endsWithin hasFrac hq₄)

end EndsWithin

/-- Every command but REMAINING runs one decoder, which ends within the buffer. -/
theorem exec_endsWithin {i : Instr} (h : i ≠ .remaining) :
    ∃ op : Buffer → Read Value, (∀ s, exec i s = performRead op s) ∧
      ∀ B p, p ≤ B.bits → EndsWithin B p p ((op B).run p) := by
  cases i with
  | remaining => exact absurd rfl h
  | nextBit => exact ⟨_, exec_nextBit, fun _ _ hp => endsWithin_map _ (takeBit_endsWithin hp)⟩
  | readBits n =>
    exact ⟨_, fun s => exec_readBits s n, fun _ _ hp => endsWithin_map _ (readBits_endsWithin_of_start n hp)⟩
  | readByteArray count =>
    exact ⟨_, fun s => exec_readByteArray s count, fun _ _ hp => endsWithin_map _ (readByteArray_endsWithin count hp)⟩
  | readBytesForBits nbits =>
    exact ⟨_, fun s => exec_readBytesForBits s nbits,
      fun _ _ hp => endsWithin_map _ (readBytesForBits_endsWithin nbits hp)⟩
  | readBitVar => exact ⟨_, exec_readBitVar, fun _ _ hp => endsWithin_map _ (readBitVar_endsWithin hp)⟩
  | readVarUInt32 =>
    exact ⟨_, exec_readVarUInt32,
      fun _ _ hp => endsWithin_map _ (readVarUInt_endsWithin (by decide) (.inl rfl) hp)⟩
  | readVarUInt64 =>
    exact ⟨_, exec_readVarUInt64,
      fun _ _ hp => endsWithin_map _ (readVarUInt_endsWithin (by decide) (.inr rfl) hp)⟩
  | readVarSInt =>
    exact ⟨_, exec_readVarSInt,
      fun _ _ hp => endsWithin_map _ (readVarUInt_endsWithin (by decide) (.inl rfl) hp)⟩
  | readFieldPathBitVar =>
    exact ⟨_, exec_readFieldPathBitVar, fun _ _ hp => endsWithin_map _ (readFieldPath_endsWithin hp)⟩
  | readLittleEndian32 =>
    exact ⟨_, exec_readLittleEndian32, fun _ _ hp => endsWithin_map _ (readLittleEndian_endsWithin 4 hp)⟩
  | readLittleEndian64 =>
    exact ⟨_, exec_readLittleEndian64, fun _ _ hp => endsWithin_map _ (readLittleEndian_endsWithin 8 hp)⟩
  | readFloat => exact ⟨_, exec_readFloat, fun _ _ hp => endsWithin_map _ (readLittleEndian_endsWithin 4 hp)⟩
  | readString => exact ⟨_, exec_readString, fun _ _ hp => endsWithin_map _ (readString_endsWithin hp)⟩
  | readAngle n =>
    exact ⟨_, fun s => exec_readAngle s n,
      fun _ _ hp => endsWithin_map _ (endsWithin_map _ (readBits_endsWithin_of_start n hp))⟩
  | readNormal => exact ⟨_, exec_readNormal, fun _ _ hp => endsWithin_map _ (readNormal_endsWithin hp)⟩
  | read3fNormal => exact ⟨_, exec_read3fNormal, fun _ _ hp => read3fNormal_endsWithin hp⟩
  | readCoord => exact ⟨_, exec_readCoord, fun _ _ hp => endsWithin_map _ (readCoord_endsWithin hp)⟩

/-! ### What one host action makes of a block -/

/-- The blocks that one command word may leave behind. The bounds on the new cursor are promised when the old one is within the
buffer; the rest holds of every block. -/
inductive Block.AfterCommand (b : Block) : Block → Prop where
  /-- The command only answers. -/
  | unchanged : b.AfterCommand b
  /-- The command succeeds and consumes the bits from `POS` to `q`. -/
  | advanced {q : Nat} (clear : b.err = 0) (within : b.pos ≤ b.buf.bits → b.pos ≤ q ∧ q ≤ b.buf.bits) :
      b.AfterCommand { b with pos := q }
  /-- The command fails, and its error is captured. -/
  | captured {e : ErrorKind} {q : Nat} (clear : b.err = 0)
      (within : b.pos ≤ b.buf.bits → b.pos ≤ q ∧ q ≤ b.buf.bits ∧ DetectedAt b.buf b.pos e q) :
      b.AfterCommand (b.capture e b.pos q)

section AfterCommand
variable {b b' : Block}

/-- A faulted block is left as it is (R229). -/
theorem Block.AfterCommand.eq_of_faulted (h : b.AfterCommand b') (he : b.err ≠ 0) : b' = b := by
  cases h with
  | unchanged => rfl
  | advanced clear => exact absurd clear he
  | captured clear => exact absurd clear he

theorem Block.AfterCommand.buf_eq (h : b.AfterCommand b') : b'.buf = b.buf := by
  cases h <;> rfl

/-- The cursor stays within the buffer and does not move back (R23). -/
theorem Block.AfterCommand.pos_within (h : b.AfterCommand b') (hp : b.pos ≤ b.buf.bits) :
    b.pos ≤ b'.pos ∧ b'.pos ≤ b.buf.bits := by
  cases h with
  | unchanged => exact ⟨le_refl _, hp⟩
  | advanced _ within => exact within hp
  | captured _ within =>
    obtain ⟨hforward, hbound, -⟩ := within hp
    exact ⟨hforward, hbound⟩

end AfterCommand

/-- The code of an error tells its kind (R27). -/
theorem errorCode_inj {e e' : ErrorKind} : errorCode e = errorCode e' ↔ e = e' := by
  cases e <;> cases e' <;> decide

theorem errorCode_ne_zero (e : ErrorKind) : errorCode e ≠ 0 := by
  cases e <;> decide

theorem errorCode_toNat_le (e : ErrorKind) : (errorCode e).toNat ≤ 4 := by
  cases e <;> decide

section Inv
variable {b b' : Block}

/-- `LOAD` makes a block that meets the invariant (R251, R252). -/
theorem Block.inv_load (bytes : List Byte) : (Block.load bytes).Inv where
  canonical := wf_ofBytes bytes
  bound := Nat.zero_le _
  code := Nat.zero_le _
  clear := fun _ => ⟨rfl, rfl⟩
  record := fun h => absurd rfl h
  endOfBuffer := by simp
  invalidWidth := fun _ => rfl
  malformed := by simp
  illegal := fun _ => rfl

/-- A block without a failure keeps the invariant while its cursor stays within the buffer. -/
theorem Block.Inv.advance (hb : b.Inv) (he : b.err = 0) {q : Nat} (hq : q ≤ b.buf.bits) :
    { b with pos := q }.Inv where
  canonical := hb.canonical
  bound := hq
  code := hb.code
  clear := hb.clear
  record := fun h => absurd he h
  endOfBuffer := hb.endOfBuffer
  invalidWidth := hb.invalidWidth
  malformed := hb.malformed
  illegal := hb.illegal

/-- Error capture writes a record that means what R26 to R28 say. -/
theorem Block.Inv.capture (hb : b.Inv) {e : ErrorKind} {q : Nat} (hforward : b.pos ≤ q) (hbound : q ≤ b.buf.bits)
    (hd : DetectedAt b.buf b.pos e q) : (b.capture e b.pos q).Inv where
  canonical := hb.canonical
  bound := hbound
  code := errorCode_toNat_le e
  clear := fun h => absurd h (errorCode_ne_zero e)
  record := fun _ => ⟨hforward, rfl⟩
  endOfBuffer := fun h => by
    obtain rfl : e = .endOfBuffer := errorCode_inj.1 h
    exact hd
  invalidWidth := fun h => by
    obtain rfl : e = .invalidWidth := errorCode_inj.1 h
    exact hd.symm
  malformed := fun h => by
    obtain rfl : e = .malformedVarInt := errorCode_inj.1 h
    exact hd
  illegal := fun h => by
    obtain rfl : e = .illegalCommand := errorCode_inj.1 h
    exact hd.symm

theorem Block.AfterCommand.inv (h : b.AfterCommand b') (hb : b.Inv) : b'.Inv := by
  cases h with
  | unchanged => exact hb
  | advanced clear within =>
    obtain ⟨-, hbound⟩ := within hb.bound
    exact hb.advance clear hbound
  | captured _ within =>
    obtain ⟨hforward, hbound, hd⟩ := within hb.bound
    exact hb.capture hforward hbound hd

end Inv

/-! ### What one command word can do -/

/-- From `s` to `t` by one command on block `b`, which becomes `b'`: one more response and nothing else (R67). -/
def State.Answers (s t : State) : Prop :=
  ∃ b b' r, s.block = some b ∧ b.AfterCommand b' ∧ t = s.answer b' r

section Answers
variable {s t : State} {b : Block}

theorem State.answers_respondsOnly (hb : s.block = some b) (r : Response) : s.Answers (s.respondsOnly r) :=
  ⟨b, b, r, hb, .unchanged, (State.answer_self hb r).symm⟩

theorem finish_answers (hr : s.Ready b) {res : EStateM.Result ErrorKind Nat Value}
    (hres : b.pos ≤ b.buf.bits → EndsWithin b.buf b.pos b.pos res) : s.Answers (finish s b res) := by
  obtain ⟨hb, he⟩ := hr
  cases res with
  | ok v q =>
    refine ⟨b, _, _, hb, .advanced he fun hp => ?_, rfl⟩
    cases hres hp with
    | ok hforward hbound => exact ⟨hforward, hbound⟩
  | error e q =>
    refine ⟨b, _, _, hb, .captured he fun hp => ?_, rfl⟩
    cases hres hp with
    | error hforward hbound hd => exact ⟨hforward, hbound, hd⟩

theorem performIllegal_answers (h : performIllegal s = .next t) : s.Answers t := by
  cases hb : s.block with
  | none => simp [performIllegal, hb] at h
  | some b =>
    by_cases he : b.err = 0
    · rw [performIllegal_first ⟨hb, he⟩] at h
      obtain rfl := Host.Outcome.next.inj h
      exact ⟨b, _, _, hb, .captured (e := .illegalCommand) he fun hp => ⟨le_refl _, hp, rfl⟩, rfl⟩
    · rw [performIllegal_faulted hb he] at h
      obtain rfl := Host.Outcome.next.inj h
      exact State.answers_respondsOnly hb _

theorem exec_answers {i : Instr} (h : exec i s = .next t) : s.Answers t := by
  by_cases hi : i = .remaining
  · subst hi
    obtain ⟨b, hb, rfl⟩ := performQuery_next h
    exact State.answers_respondsOnly hb _
  · obtain ⟨op, hop, hends⟩ := exec_endsWithin hi
    rw [hop] at h
    obtain ⟨b, hb, ⟨-, rfl⟩ | ⟨he, rfl⟩⟩ := performRead_next h
    · exact State.answers_respondsOnly hb _
    · exact finish_answers ⟨hb, he⟩ (hends b.buf b.pos)

/-- A command word, legal or not, is one command on the block, the action consumed (R60, R228). -/
theorem step_command_answers {w : Command} {rest : List HostAction} (hw : s.pending = .command w :: rest)
    (h : step s = .next t) : { s with pending := rest }.Answers t := by
  rw [step_command hw] at h
  split at h
  · exact exec_answers h
  · exact performIllegal_answers h

/-- With nothing left to do there is no next state. -/
theorem pending_ne_nil_of_step_next (h : step s = .next t) : s.pending ≠ [] := by
  intro hp
  simp [step, nextAction, hp] at h

end Answers

/-- Settles O12: a `LOAD` makes a block that meets the invariant, and a command word keeps it by `Block.AfterCommand.inv`. -/
theorem everyStepKeepsTheInvariant : Obligations.EveryStepKeepsTheInvariant := by
  intro s t hs h
  cases hp : s.pending with
  | nil => exact absurd hp (pending_ne_nil_of_step_next h)
  | cons a rest =>
    cases a with
    | load bytes =>
      rw [step_load hp] at h
      obtain rfl := Host.Outcome.next.inj h
      rintro b ⟨⟩
      exact Block.inv_load bytes
    | command w =>
      obtain ⟨b, b', r, hb, hafter, rfl⟩ := step_command_answers hp h
      rintro c ⟨⟩
      exact hafter.inv (hs b hb)

/-- Settles O13: `step_command_answers` gives the shape of the next state, `Block.AfterCommand` the buffer and the cursor. -/
theorem everyCommandAnswersOnceAndOnlyMovesForward : Obligations.EveryCommandAnswersOnceAndOnlyMovesForward := by
  intro s t w rest b hp hb hpos h
  obtain ⟨c, b', r, hc, hafter, rfl⟩ := step_command_answers hp h
  obtain rfl : b = c := Option.some.inj (hb.symm.trans hc)
  exact ⟨b', r, rfl, hafter.buf_eq, hafter.pos_within hpos⟩

/-! ### Runs of command words -/

/-- A run of at least one step is a step and the run of the rest. -/
theorem run_succ_next {M : Host.Core} {n : Nat} {s t : M.State} (h : M.run (n + 1) s = .next t) :
    ∃ s', M.step s = .next s' ∧ M.run n s' = .next t := by
  rw [Host.Core.run] at h
  split at h
  next s' hs => exact ⟨s', hs, h⟩
  all_goals cases h

/-- A command word leaves a faulted block as it is and takes one action off the script (R229). -/
theorem step_command_of_faulted {s t : State} {w : Command} {rest : List HostAction} {b : Block}
    (hp : s.pending = .command w :: rest) (hb : s.block = some b) (he : b.err ≠ 0) (h : step s = .next t) :
    t.block = some b ∧ t.pending = rest := by
  obtain ⟨c, b', r, hc, hafter, rfl⟩ := step_command_answers hp h
  obtain rfl : b = c := Option.some.inj (hb.symm.trans hc)
  rw [hafter.eq_of_faulted he]
  exact ⟨rfl, rfl⟩

/-- Settles O16, by induction on the number of steps. -/
theorem errorRecordStaysUntilLoad : Obligations.ErrorRecordStaysUntilLoad := by
  intro n
  induction n with
  | zero =>
    rintro s t b hb - - ⟨⟩
    exact hb
  | succ n ih =>
    intro s t b hb he hcommands h
    obtain ⟨s', hstep, hrun⟩ := run_succ_next h
    cases hp : s.pending with
    | nil => exact absurd hp (pending_ne_nil_of_step_next hstep)
    | cons a rest =>
      rw [hp, List.take_succ_cons, List.forall_mem_cons] at hcommands
      obtain ⟨⟨w, rfl⟩, hrest⟩ := hcommands
      obtain ⟨hb', rfl⟩ := step_command_of_faulted hp hb he hstep
      exact ih s' t b hb' he hrest hrun

end Sys2Proof.Machine

/-! ## What commands answer

First what two commands or two instances have to do with each other, from the rules that say what a command gives on a
block that is not faulted. Then the tables: what each decoder consumes, returns and fails with, put together with
`exec_endsWithin`. -/

namespace Sys2Proof.Machine

/-! ### Commands on a block that is not faulted -/

section ReadyBlock
variable {s : State} {b : Block}

/-- A command that succeeds leaves the block ready for the next one. -/
theorem State.Ready.succeeds (h : s.Ready b) (k : Nat) (v : Value) :
    (s.succeeds b k v).Ready { b with pos := b.pos + k } :=
  ⟨rfl, h.2⟩

/-- An answer that consumes nothing leaves the block as it is. -/
theorem State.succeeds_zero (hb : s.block = some b) (v : Value) : s.succeeds b 0 v = s.respondsOnly (.ok v) := by
  simp [State.succeeds, State.respondsOnly, hb]

/-- A reading command on a block that is not faulted ends as its decoder does (R228). -/
theorem performRead_ready {op : Buffer → Read Value} (h : s.Ready b) :
    performRead op s = .next (finish s b ((op b.buf).run b.pos)) := by
  obtain ⟨hb, he⟩ := h
  simp [performRead, hb, faulted_eq_false he]

/-- READBITS with enough bits answers the field at the cursor (R102). -/
theorem exec_readBits_ok {n : Nat} (h : s.Ready b) (hn : n ≤ 32) (hb : b.pos + n ≤ b.buf.bits) :
    exec (.readBits n) s = .next (s.succeeds b n (.unsigned (fieldAt b.buf b.pos n))) :=
  performRead_map_ok (op := (readBits · n)) (f := .unsigned) h (readBits_ok hn hb)

/-- READBITS after a command that consumed `k` bits. -/
theorem exec_readBits_after {k n : Nat} {v : Value} (h : s.Ready b) (hn : n ≤ 32) (hb : b.pos + (k + n) ≤ b.buf.bits) :
    exec (.readBits n) (s.succeeds b k v) =
      .next ((s.succeeds b k v).succeeds { b with pos := b.pos + k } n (.unsigned (fieldAt b.buf (b.pos + k) n))) :=
  exec_readBits_ok (h.succeeds k v) hn (by rwa [← Nat.add_assoc] at hb)

/-- A little-endian read with all its bits reads their field (R160, R162). -/
theorem readLittleEndian_full {B : Buffer} {p m : Nat} (h : p + 8 * m ≤ B.bits) :
    (readLittleEndian B m).run p = .ok (fieldAt B p (8 * m)) (p + 8 * m) := by
  rw [readLittleEndian, read_bind_ok (readByteArray_full h), read_pure, leWordFrom_bytesAt]

end ReadyBlock

/-- Settles O26: two adjacent fields are one field, by `fieldAt_add`. -/
theorem readsOfMixedWidthCompose : Obligations.ReadsOfMixedWidthCompose := by
  intro a c s b h hwidth hbits
  refine ⟨fieldAt b.buf b.pos a, fieldAt b.buf (b.pos + a) c, exec_readBits_ok h (by omega) (by omega),
    exec_readBits_after h (by omega) hbits, ?_⟩
  rw [← fieldAt_add]
  exact exec_readBits_ok h hwidth hbits

/-- Settles O36: the word of a little-endian read is the field of its bits, and 64 bits are two fields of 32. -/
theorem littleEndianReadsAgreeWithReadBits : Obligations.LittleEndianReadsAgreeWithReadBits := by
  intro s b h
  constructor
  · intro hbits
    refine ⟨_, fieldAt_lt _ _ _, exec_readBits_ok h (le_refl 32) hbits, ?_⟩
    exact performRead_map_ok (op := (readLittleEndian · 4)) (f := fun v => .word32 (BitVec.ofNat 32 v)) h
      (readLittleEndian_full hbits)
  · intro hbits
    refine ⟨fieldAt b.buf b.pos 32, fieldAt b.buf (b.pos + 32) 32, fieldAt_lt _ _ _, fieldAt_lt _ _ _,
      exec_readBits_ok h (le_refl 32) (by omega), exec_readBits_after h (le_refl 32) hbits, ?_⟩
    rw [← fieldAt_add]
    exact performRead_map_ok (op := (readLittleEndian · 8)) (f := fun v => .word64 (BitVec.ofNat 64 v)) h
      (readLittleEndian_full hbits)

/-- Settles O17: a reading command ends as its decoder does, and the decoder sees the buffer and the cursor alone. -/
theorem responseDependsOnBufferAndCursorAlone : Obligations.ResponseDependsOnBufferAndCursorAlone := by
  intro i s s' b b' h h' hbuf hpos
  have herr : b.err = b'.err := h.2.trans h'.2.symm
  by_cases hi : i = .remaining
  · subst hi
    refine ⟨.ok (.natural (remainingBits b.buf b.pos)), b, b', ?_, ?_, hbuf, hpos, herr⟩
    · rw [exec_remaining, performQuery_eq h.1, ← State.answer_self h.1, State.answer]
    · rw [exec_remaining, performQuery_eq h'.1, ← State.answer_self h'.1, State.answer, hbuf, hpos]
  · obtain ⟨op, hop⟩ := exec_eq_performRead hi
    rw [hop, hop, performRead_ready h, performRead_ready h', hbuf, hpos]
    cases (op b'.buf).run b'.pos with
    | ok v q => exact ⟨.ok v, { b with pos := q }, { b' with pos := q }, rfl, rfl, hbuf, rfl, herr⟩
    | error e q =>
      refine ⟨.err (errorCode e) b'.pos q, b.capture e b.pos q, b'.capture e b'.pos q, ?_, rfl, hbuf, rfl, rfl⟩
      rw [← hpos]
      rfl

/-! ### Several instances (R234, R260) -/

/-- A scheduled step at index `k` is the step of the state there, and no other state moves. -/
theorem stepInstance_eq_some {k : Nat} {all all' : List State} (h : stepInstance k all = some all') :
    ∃ s s', all[k]? = some s ∧ step s = .next s' ∧ all' = all.set k s' := by
  unfold stepInstance at h
  split at h
  next => cases h
  next s hs =>
    split at h
    next s' hstep => exact ⟨s, s', hs, hstep, (Option.some.inj h).symm⟩
    all_goals cases h

theorem runSchedule_cons_eq_some {k : Nat} {rest : List Nat} {all all' : List State}
    (h : runSchedule (k :: rest) all = some all') :
    ∃ mid, stepInstance k all = some mid ∧ runSchedule rest mid = some all' := by
  rw [runSchedule] at h
  split at h
  next => cases h
  next mid hmid => exact ⟨mid, hmid, h⟩

theorem runAlone_succ {s s' : State} (h : step s = .next s') (n : Nat) : runAlone (n + 1) s = runAlone n s' := by
  rw [runAlone, h]

/-- Settles O18, by induction on the schedule: its first step is that of state `k`, or another one that does not touch it. -/
theorem interleavedInstancesRunAsAlone : Obligations.InterleavedInstancesRunAsAlone := by
  intro schedule
  induction schedule with
  | nil =>
    rintro all _ ⟨⟩ k s hs
    exact ⟨s, hs, rfl⟩
  | cons j rest ih =>
    intro all all' h k s hs
    obtain ⟨mid, hmid, hrest⟩ := runSchedule_cons_eq_some h
    obtain ⟨t, t', ht, hstep, rfl⟩ := stepInstance_eq_some hmid
    by_cases hk : j = k
    · subst hk
      obtain rfl : s = t := Option.some.inj (hs.symm.trans ht)
      obtain ⟨hlt, -⟩ := List.getElem?_eq_some_iff.1 hs
      rw [List.count_cons_self, runAlone_succ hstep]
      exact ih _ all' hrest j t' (List.getElem?_set_self hlt)
    · rw [List.count_cons_of_ne hk]
      exact ih _ all' hrest k s (by rw [List.getElem?_set_ne hk, hs])

/-! ### The ranges of computed values (R67) -/

/-- The extended value of a BitVar: the low 4 bits of its base and at most 28 bits above them (R72). -/
theorem bitVar_lt (base : Nat) {x : Nat} (hx : x < 2 ^ 28) : (base &&& 0x0F) ||| (x <<< 4) < 2 ^ 32 := by
  have hlow : base &&& 0x0F < 2 ^ 4 := Nat.and_lt_two_pow base (by decide)
  rw [or_shiftLeft_eq_add hlow]
  omega

/-- `signed_32` of a 32-bit word is in the signed range (R10). -/
theorem signedOf_range {w : Nat} (hw : w < 2 ^ 32) : -2 ^ 31 ≤ signedOf 32 w ∧ signedOf 32 w ≤ 2 ^ 31 - 1 := by
  unfold signedOf
  split <;> omega

theorem unzigzag_range {u : Nat} (hu : u < 2 ^ 32) : -2 ^ 31 ≤ unzigzag u ∧ unzigzag u ≤ 2 ^ 31 - 1 := by
  have hshift : u >>> 1 < 2 ^ 32 := (Nat.shiftRight_le u 1).trans_lt hu
  exact signedOf_range (Nat.xor_lt_two_pow hshift (by split <;> decide))

theorem ratio_nonneg (num den : Nat) : 0 ≤ ratio num den := by
  rw [ratio, Rat.mkRat_eq_div]
  positivity

theorem ratio_le_one {num den : Nat} (hden : 0 < den) (h : num ≤ den) : ratio num den ≤ 1 := by
  rw [ratio, Rat.mkRat_eq_div]
  exact div_le_one_of_le₀ (by exact_mod_cast h) (by positivity)

/-- A field of `n` bits is less than the whole turn of `2^n` (R181). -/
theorem angle_lt {n k : Nat} (hk : k < 2 ^ n) : ratio (k * 360) (2 ^ n) < 360 := by
  have hpow : (0 : Rat) < ((2 ^ n : Nat) : Rat) := by positivity
  rw [ratio, Rat.mkRat_eq_div, Int.cast_natCast, div_lt_iff₀ hpow]
  exact_mod_cast (by omega : k * 360 < 360 * 2 ^ n)

theorem zSquare_nonneg (x y : SignedMag) : 0 ≤ zSquare x y := by
  unfold zSquare
  dsimp only
  split <;> linarith

theorem zSquare_le_one (x y : SignedMag) : zSquare x y ≤ 1 := by
  have ht : 0 ≤ x.mag * x.mag + y.mag * y.mag := add_nonneg (mul_self_nonneg _) (mul_self_nonneg _)
  unfold zSquare
  dsimp only
  split <;> linarith

theorem coordMag_nonneg (ip fp : Nat) : 0 ≤ (ip : Rat) + ratio fp 32 :=
  add_nonneg (Nat.cast_nonneg ip) (ratio_nonneg fp 32)

theorem coordMag_le {ip fp : Nat} (hip : ip ≤ 16384) (hfp : fp ≤ 31) : (ip : Rat) + ratio fp 32 ≤ 16384 + 31 / 32 := by
  have hint : (ip : Rat) ≤ 16384 := by exact_mod_cast hip
  have hfrac : (fp : Rat) ≤ 31 := by exact_mod_cast hfp
  rw [ratio, Rat.mkRat_eq_div]
  push_cast
  linarith

/-! ### What a decoder consumes, returns and fails with (R47, R67, R220) -/

/-- The results a read from `p` may have: the bits it consumes and its value are as `post` says, an error is one of
`kinds`. `EndsWithin` says where an error is detected. -/
inductive Yields {α : Type} (kinds : ErrorKind → Prop) (post : Nat → α → Prop) (p : Nat) :
    EStateM.Result ErrorKind Nat α → Prop where
  | ok {a : α} {k : Nat} (holds : post k a) : Yields kinds post p (.ok a (p + k))
  | error {e : ErrorKind} {q : Nat} (kind : kinds e) : Yields kinds post p (.error e q)

section Yields
variable {α β : Type} {kinds : ErrorKind → Prop} {B : Buffer} {p : Nat}

theorem yields_pure {post : Nat → α → Prop} {a : α} (h : post 0 a) : Yields kinds post p ((pure a : Read α).run p) :=
  .ok h

theorem Yields.imp {post post' : Nat → α → Prop} {r : EStateM.Result ErrorKind Nat α} (h : Yields kinds post p r)
    (himp : ∀ k a, post k a → post' k a) : Yields kinds post' p r := by
  cases h with
  | ok holds => exact .ok (himp _ _ holds)
  | error kind => exact .error kind

/-- Reads in sequence: the second consumes its bits after those of the first. -/
theorem yields_bind {x : Read α} {f : α → Read β} {post : Nat → α → Prop} {post' : Nat → β → Prop}
    (hx : Yields kinds post p (x.run p))
    (hf : ∀ k a, post k a → Yields kinds (fun j b => post' (k + j) b) (p + k) ((f a).run (p + k))) :
    Yields kinds post' p ((x >>= f).run p) := by
  generalize hr : x.run p = r at hx
  cases hx with
  | @ok a k holds =>
    have h := hf k a holds
    rw [read_bind_ok hr]
    generalize (f a).run (p + k) = r' at h
    cases h with
    | ok holds' => rw [Nat.add_assoc]; exact .ok holds'
    | error kind => exact .error kind
  | error kind =>
    rw [read_bind_error hr]
    exact .error kind

/-- A read whose value is wrapped. -/
theorem yields_map {x : Read α} {f : α → β} {post : Nat → α → Prop} {post' : Nat → β → Prop}
    (hx : Yields kinds post p (x.run p)) (hf : ∀ k a, post k a → post' k (f a)) :
    Yields kinds post' p ((do return f (← x) : Read β).run p) :=
  yields_bind hx fun k a h => yields_pure (hf k a h)

/-! ### The shared operations that fail for want of bits alone -/

section EndOfBuffer
variable (hend : kinds .endOfBuffer)
include hend

theorem takeBit_yields : Yields kinds (fun k _ => k = 1) p ((takeBit B).run p) := by
  by_cases h : p < B.bits
  · rw [takeBit_ok h]
    exact .ok rfl
  · rw [takeBit_end (by omega)]
    exact .error hend

theorem readBitsFrom_yields {left i v : Nat} (hv : v < 2 ^ i) :
    Yields kinds (fun k a => k = left ∧ a < 2 ^ (i + left)) p ((readBitsFrom B left i v).run p) := by
  induction left generalizing p i v with
  | zero => exact yields_pure ⟨rfl, hv⟩
  | succ left ih =>
    refine yields_bind (takeBit_yields hend) ?_
    rintro _ bit rfl
    have hbit : v ||| bit.toNat <<< i < 2 ^ (i + 1) := by
      have h1 := Nat.mul_le_mul_right (2 ^ i) (Bool.toNat_le bit)
      rw [or_shiftLeft_eq_add hv, pow_succ]
      omega
    refine (ih hbit).imp ?_
    rintro k a ⟨rfl, ha⟩
    exact ⟨Nat.add_comm _ _, by rwa [Nat.add_assoc, Nat.add_comm 1] at ha⟩

theorem readBits_yields {n : Nat} (hn : n ≤ 32) :
    Yields kinds (fun k v => k = n ∧ v < 2 ^ n) p ((readBits B n).run p) := by
  rw [readBits, if_neg (by omega)]
  have h := readBitsFrom_yields (B := B) (p := p) hend (left := n) (i := 0) (v := 0) (by decide)
  rwa [Nat.zero_add] at h

/-- A group of bytes takes 8 bits, and a final one may take fewer (R105, R106). -/
theorem readGroup_yields {final : Bool} :
    Yields kinds (fun k _ => k = 8 ∨ (final = true ∧ 1 ≤ k ∧ k < 8)) p ((readGroup B final).run p) := by
  rw [readGroup_eq]
  split
  case isTrue h =>
    obtain ⟨hfinal, hlow, hhigh⟩ := h
    refine yields_map (readBits_yields hend (by omega)) ?_
    rintro k v ⟨rfl, -⟩
    exact .inr ⟨hfinal, hlow, by omega⟩
  case isFalse =>
    refine yields_map (readBits_yields hend (by omega)) ?_
    rintro k v ⟨rfl, -⟩
    exact .inl rfl

/-- The bits of a byte array: all of its groups', or some of its last group's (R47). -/
theorem readByteArray_yields {count : Nat} :
    Yields kinds
      (fun k bs => (k = 8 * count ∨ (1 ≤ count ∧ 8 * (count - 1) < k ∧ k < 8 * count)) ∧ bs.length = count) p
      ((readByteArray B count).run p) := by
  induction count generalizing p with
  | zero => exact yields_pure ⟨.inl rfl, rfl⟩
  | succ left ih =>
    refine yields_bind (readGroup_yields hend) fun k byte hk => yields_map ih ?_
    rintro j bs ⟨hj, hlength⟩
    rw [beq_iff_eq] at hk
    exact ⟨by omega, by rw [List.length_cons, hlength]⟩

theorem readFullBytes_yields {count : Nat} :
    Yields kinds (fun k bs => k = 8 * count ∧ bs.length = count) p ((readFullBytes B count).run p) := by
  induction count generalizing p with
  | zero => exact yields_pure ⟨rfl, rfl⟩
  | succ left ih =>
    refine yields_bind (readBits_yields hend (by omega)) ?_
    rintro k v ⟨rfl, -⟩
    refine yields_map ih ?_
    rintro j bs ⟨rfl, hlength⟩
    exact ⟨by omega, by rw [List.length_cons, hlength]⟩

theorem readBytesForBits_yields {nbits : Nat} :
    Yields kinds (fun k bs => k = nbits ∧ bs.length = (nbits + 7) / 8) p ((readBytesForBits B nbits).run p) := by
  refine yields_bind (readFullBytes_yields hend) ?_
  rintro _ full ⟨rfl, hlength⟩
  split
  case isTrue hr => exact yields_pure ⟨by omega, by omega⟩
  case isFalse hr =>
    refine yields_map (readBits_yields hend (by omega)) ?_
    rintro _ v ⟨rfl, -⟩
    exact ⟨by omega, by rw [List.length_append, List.length_singleton]; omega⟩

/-- A little-endian read takes at least one bit of its last byte (R161). -/
theorem readLittleEndian_yields {m : Nat} :
    Yields kinds (fun k _ => 8 * m < k ∧ k ≤ 8 * (m + 1)) p ((readLittleEndian B (m + 1)).run p) := by
  refine yields_map (readByteArray_yields hend) ?_
  rintro k bs ⟨hk, -⟩
  omega

theorem readStringFuel_yields {fuel : Nat} :
    Yields kinds (fun k bs => (∃ n, k = 8 * (n + 1)) ∧ ∀ c ∈ bs, c ≠ 0) p ((readStringFuel B fuel).run p) := by
  induction fuel generalizing p with
  | zero => exact .error hend
  | succ fuel ih =>
    refine yields_bind (readBits_yields hend (n := 8) (by omega)) ?_
    rintro _ c ⟨rfl, hc⟩
    split
    case isTrue => exact yields_pure ⟨⟨0, rfl⟩, by simp⟩
    case isFalse hne =>
      refine yields_map ih ?_
      rintro _ bs ⟨⟨n, rfl⟩, hbs⟩
      have hchar : BitVec.ofNat 8 c ≠ 0 := by
        intro h
        have hmod : c % 256 = 0 := by simpa using congrArg BitVec.toNat h
        omega
      exact ⟨⟨n + 1, by omega⟩, List.forall_mem_cons.2 ⟨hchar, hbs⟩⟩

/-! ### The decoders of single commands that fail for want of bits alone -/

theorem readBitVar_yields :
    Yields kinds (fun k v => (k = 6 ∨ k = 10 ∨ k = 14 ∨ k = 34) ∧ v < 2 ^ 32) p ((readBitVar B).run p) := by
  refine yields_bind (readBits_yields hend (by omega)) ?_
  rintro _ base ⟨rfl, hbase⟩
  dsimp only
  split
  · exact yields_map (readBits_yields hend (by omega)) fun k x ⟨hk, hx⟩ => ⟨by omega, bitVar_lt base hx⟩
  split
  · exact yields_map (readBits_yields hend (by omega)) fun k x ⟨hk, hx⟩ => ⟨by omega, bitVar_lt base (by omega)⟩
  split
  · exact yields_map (readBits_yields hend (by omega)) fun k x ⟨hk, hx⟩ => ⟨by omega, bitVar_lt base (by omega)⟩
  · exact yields_pure ⟨.inl rfl, by omega⟩

theorem readFieldPath_yields :
    Yields kinds (fun k v => (k = 3 ∨ k = 6 ∨ k = 13 ∨ k = 21 ∨ k = 35) ∧ v < 2 ^ 31) p ((readFieldPath B).run p) := by
  refine yields_bind (takeBit_yields hend) ?_
  rintro _ one rfl
  split
  · exact (readBits_yields hend (by omega)).imp fun k v ⟨hk, hv⟩ => ⟨by omega, by omega⟩
  refine yields_bind (takeBit_yields hend) ?_
  rintro _ two rfl
  split
  · exact (readBits_yields hend (by omega)).imp fun k v ⟨hk, hv⟩ => ⟨by omega, by omega⟩
  refine yields_bind (takeBit_yields hend) ?_
  rintro _ three rfl
  split
  · exact (readBits_yields hend (by omega)).imp fun k v ⟨hk, hv⟩ => ⟨by omega, by omega⟩
  refine yields_bind (takeBit_yields hend) ?_
  rintro _ four rfl
  split
  · exact (readBits_yields hend (by omega)).imp fun k v ⟨hk, hv⟩ => ⟨by omega, by omega⟩
  · exact (readBits_yields hend (by omega)).imp fun k v ⟨hk, hv⟩ => ⟨by omega, by omega⟩

/-- The magnitude of a normal is at most 1 (R183). -/
theorem readNormal_yields :
    Yields kinds (fun k q => k = 12 ∧ 0 ≤ q.mag ∧ q.mag ≤ 1) p ((readNormal B).run p) := by
  refine yields_bind (takeBit_yields hend) ?_
  rintro _ sign rfl
  refine yields_map (readBits_yields hend (by omega)) ?_
  rintro _ m ⟨rfl, hm⟩
  exact ⟨rfl, ratio_nonneg _ _, ratio_le_one (by decide) (by omega)⟩

theorem readComponent_yields {present : Bool} :
    Yields kinds (fun k q => k = optionalBits present 12 ∧ 0 ≤ q.mag ∧ q.mag ≤ 1) p
      ((readComponent B present).run p) := by
  cases present with
  | true => exact readNormal_yields hend
  | false => exact yields_pure ⟨rfl, le_refl _, zero_le_one⟩

theorem read3fNormal_yields :
    Yields kinds (fun k v => mayConsume .read3fNormal k ∧ mayReturn .read3fNormal B v) p ((read3fNormal B).run p) := by
  refine yields_bind (takeBit_yields hend) ?_
  rintro _ hasX rfl
  refine yields_bind (takeBit_yields hend) ?_
  rintro _ hasY rfl
  refine yields_bind (readComponent_yields hend) ?_
  rintro _ x ⟨rfl, hx0, hx1⟩
  refine yields_bind (readComponent_yields hend) ?_
  rintro _ y ⟨rfl, hy0, hy1⟩
  refine yields_map (takeBit_yields hend) ?_
  rintro _ negZ rfl
  refine ⟨?_, x, y, _, rfl, hx0, hx1, hy0, hy1, zSquare_nonneg x y, zSquare_le_one x y⟩
  unfold mayConsume
  cases hasX <;> cases hasY <;> decide

theorem readCoordInt_yields {present : Bool} :
    Yields kinds (fun k v => k = optionalBits present 14 ∧ v ≤ 16384) p ((readCoordInt B present).run p) := by
  cases present with
  | true => exact yields_map (readBits_yields hend (by omega)) fun k v ⟨hk, hv⟩ => ⟨hk, by omega⟩
  | false => exact yields_pure ⟨rfl, by omega⟩

theorem readCoordFrac_yields {present : Bool} :
    Yields kinds (fun k v => k = optionalBits present 5 ∧ v ≤ 31) p ((readCoordFrac B present).run p) := by
  cases present with
  | true => exact (readBits_yields (n := 5) hend (by omega)).imp fun k v ⟨hk, hv⟩ => ⟨hk, by omega⟩
  | false => exact yields_pure ⟨rfl, by omega⟩

/-- The magnitude of a coord is at most 16384 + 31/32 (R186). -/
theorem readCoord_yields :
    Yields kinds (fun k q => mayConsume .readCoord k ∧ 0 ≤ q.mag ∧ q.mag ≤ 16384 + 31 / 32) p ((readCoord B).run p) := by
  refine yields_bind (takeBit_yields hend) ?_
  rintro _ hasInt rfl
  refine yields_bind (takeBit_yields hend) ?_
  rintro _ hasFrac rfl
  split
  case isTrue => exact yields_pure ⟨.inl rfl, le_refl _, by norm_num [SignedMag.zero]⟩
  case isFalse hflags =>
    refine yields_bind (takeBit_yields hend) ?_
    rintro _ sign rfl
    refine yields_bind (readCoordInt_yields hend) ?_
    rintro _ ip ⟨rfl, hip⟩
    refine yields_map (readCoordFrac_yields hend) ?_
    rintro _ fp ⟨rfl, hfp⟩
    refine ⟨?_, coordMag_nonneg ip fp, coordMag_le hip hfp⟩
    unfold mayConsume
    revert hflags
    cases hasInt <;> cases hasFrac <;> decide

end EndOfBuffer

/-! ### The decoders with an error of their own -/

/-- A width over 32 fails before any bit is wanted (R102, R222). -/
theorem readBits_yields_of_any {n : Nat} (hend : kinds .endOfBuffer) (hwidth : kinds .invalidWidth) :
    Yields kinds (fun k v => (k = n ∧ n ≤ 32) ∧ v < 2 ^ n) p ((readBits B n).run p) := by
  by_cases hn : n ≤ 32
  · exact (readBits_yields hend hn).imp fun k v ⟨hk, hv⟩ => ⟨⟨hk, hn⟩, hv⟩
  · rw [readBits_wide (by omega)]
    exact .error hwidth

/-- The angle is a part of the full turn (R181). -/
theorem readAngle_yields {n : Nat} (hend : kinds .endOfBuffer) (hwidth : kinds .invalidWidth) :
    Yields kinds (fun k q => (k = n ∧ n ≤ 32) ∧ q.neg = false ∧ 0 ≤ q.mag ∧ q.mag < 360) p ((readAngle B n).run p) :=
  yields_map (readBits_yields_of_any hend hwidth) fun _ _ ⟨hk, hv⟩ => ⟨hk, rfl, ratio_nonneg _ _, angle_lt hv⟩

/-- A VarUInt of at most `left` more groups: whole groups, and a value that fits its width (R132, R135). -/
theorem readVarUIntFrom_yields {W left j v : Nat} (hend : kinds .endOfBuffer) (hmalformed : kinds .malformedVarInt) :
    Yields kinds (fun k u => (∃ g, 1 ≤ g ∧ g ≤ left ∧ k = 8 * g) ∧ u < 2 ^ W) p
      ((readVarUIntFrom B W left j v).run p) := by
  induction left generalizing p j v with
  | zero => exact .error hmalformed
  | succ left ih =>
    refine yields_bind (readBits_yields hend (by omega)) ?_
    rintro _ group ⟨rfl, -⟩
    dsimp only
    split
    · split
      case isTrue => exact .error hmalformed
      case isFalse hfits => exact yields_pure ⟨⟨1, le_refl 1, by omega, rfl⟩, Nat.lt_of_not_le hfits⟩
    · refine ih.imp ?_
      rintro _ u ⟨⟨g, hg, hleft, rfl⟩, hu⟩
      exact ⟨⟨g + 1, by omega, by omega, by omega⟩, hu⟩

theorem readVarUInt_yields (G W : Nat) (hend : kinds .endOfBuffer) (hmalformed : kinds .malformedVarInt) :
    Yields kinds (fun k u => (∃ g, 1 ≤ g ∧ g ≤ G ∧ k = 8 * g) ∧ u < 2 ^ W) p ((readVarUInt B G W).run p) :=
  readVarUIntFrom_yields hend hmalformed

end Yields

/-- The error kinds a decoded command may raise, by the codes of its row of R220. -/
def MayRaise (i : Instr) (e : ErrorKind) : Prop := mayFail i (errorCode e)

/-- Every command but REMAINING may run out of bits (R221). -/
theorem mayRaise_endOfBuffer {i : Instr} (h : i ≠ .remaining) : MayRaise i .endOfBuffer := by
  cases i with
  | remaining => exact absurd rfl h
  | readBits | readVarUInt32 | readVarUInt64 | readVarSInt | readAngle => exact .inl rfl
  | _ => exact rfl

/-- Every command but REMAINING runs one decoder, which meets the command's rows of R47, R67 and R220. -/
theorem exec_yields {i : Instr} (h : i ≠ .remaining) :
    ∃ op : Buffer → Read Value, (∀ s, exec i s = performRead op s) ∧
      ∀ B p, Yields (MayRaise i) (fun k v => mayConsume i k ∧ mayReturn i B v) p
        ((op B).run p) := by
  have hend := mayRaise_endOfBuffer h
  cases i with
  | remaining => exact absurd rfl h
  | nextBit =>
    exact ⟨_, exec_nextBit, fun B p => yields_map (takeBit_yields hend) fun k bit hk => ⟨hk, bit, rfl⟩⟩
  | readBits n =>
    exact ⟨_, fun s => exec_readBits s n, fun B p =>
      yields_map (readBits_yields_of_any hend (.inr rfl)) fun k v ⟨hk, hv⟩ => ⟨hk, v, rfl, hv⟩⟩
  | readByteArray count =>
    exact ⟨_, fun s => exec_readByteArray s count, fun B p =>
      yields_map (readByteArray_yields hend) fun k bs ⟨hk, hbs⟩ => ⟨hk, bs, rfl, hbs⟩⟩
  | readBytesForBits nbits =>
    exact ⟨_, fun s => exec_readBytesForBits s nbits, fun B p =>
      yields_map (readBytesForBits_yields hend) fun k bs ⟨hk, hbs⟩ => ⟨hk, bs, rfl, hbs⟩⟩
  | readBitVar =>
    exact ⟨_, exec_readBitVar, fun B p =>
      yields_map (readBitVar_yields hend) fun k v ⟨hk, hv⟩ => ⟨hk, v, rfl, hv⟩⟩
  | readVarUInt32 =>
    exact ⟨_, exec_readVarUInt32, fun B p =>
      yields_map (readVarUInt_yields 5 32 hend (.inr rfl)) fun k u ⟨hk, hu⟩ => ⟨hk, u, rfl, hu⟩⟩
  | readVarUInt64 =>
    exact ⟨_, exec_readVarUInt64, fun B p =>
      yields_map (readVarUInt_yields 10 64 hend (.inr rfl)) fun k u ⟨hk, hu⟩ => ⟨hk, u, rfl, hu⟩⟩
  | readVarSInt =>
    exact ⟨_, exec_readVarSInt, fun B p =>
      yields_map (readVarUInt_yields 5 32 hend (.inr rfl))
        fun k u ⟨hk, hu⟩ => ⟨hk, unzigzag u, rfl, unzigzag_range hu⟩⟩
  | readFieldPathBitVar =>
    exact ⟨_, exec_readFieldPathBitVar, fun B p =>
      yields_map (readFieldPath_yields hend) fun k v ⟨hk, hv⟩ => ⟨hk, v, rfl, hv⟩⟩
  | readLittleEndian32 =>
    exact ⟨_, exec_readLittleEndian32, fun B p =>
      yields_map (readLittleEndian_yields hend) fun k w hk => ⟨hk, _, rfl⟩⟩
  | readLittleEndian64 =>
    exact ⟨_, exec_readLittleEndian64, fun B p =>
      yields_map (readLittleEndian_yields hend) fun k w hk => ⟨hk, _, rfl⟩⟩
  | readFloat =>
    exact ⟨_, exec_readFloat, fun B p =>
      yields_map (readLittleEndian_yields hend) fun k w hk => ⟨hk, _, rfl⟩⟩
  | readString =>
    exact ⟨_, exec_readString, fun B p =>
      yields_map (readStringFuel_yields hend) fun k bs ⟨hk, hbs⟩ => ⟨hk, bs, rfl, hbs⟩⟩
  | readAngle n =>
    exact ⟨_, fun s => exec_readAngle s n, fun B p =>
      yields_map (readAngle_yields hend (.inr rfl)) fun k q ⟨hk, hq⟩ => ⟨hk, q, rfl, hq⟩⟩
  | readNormal =>
    exact ⟨_, exec_readNormal, fun B p =>
      yields_map (readNormal_yields hend) fun k q ⟨hk, hq⟩ => ⟨hk, q, rfl, hq⟩⟩
  | read3fNormal => exact ⟨_, exec_read3fNormal, fun B p => read3fNormal_yields hend⟩
  | readCoord =>
    exact ⟨_, exec_readCoord, fun B p =>
      yields_map (readCoord_yields hend) fun k q ⟨hk, hq⟩ => ⟨hk, q, rfl, hq⟩⟩

/-! ### A command completes -/

/-- The response and the cursor of an answered command tell how its decoder ended. -/
theorem finish_inj {s : State} {b : Block} {r r' : EStateM.Result ErrorKind Nat Value}
    (h : finish s b r = finish s b r') : r = r' := by
  cases r with
  | ok v q =>
    cases r' with
    | ok v' q' =>
      obtain ⟨rfl, rfl⟩ : q = q' ∧ v = v' := by simpa [finish, State.answer] using h
      rfl
    | error e' q' => simp [finish, State.answer] at h
  | error e q =>
    cases r' with
    | ok v' q' => simp [finish, State.answer] at h
    | error e' q' =>
      obtain ⟨rfl, rfl⟩ : e = e' ∧ q = q' := by simpa [finish, errorCode_inj] using congrArg State.responses h
      rfl

/-- A command tells its decoder: two decoders that perform alike in every state run alike. -/
theorem run_eq_of_performRead_eq {op op' : Buffer → Read Value} (h : ∀ s, performRead op s = performRead op' s)
    (B : Buffer) (p : Nat) : (op B).run p = (op' B).run p := by
  have hready : State.Ready ⟨some ⟨B, p, 0, 0, 0⟩, [], []⟩ ⟨B, p, 0, 0, 0⟩ := ⟨rfl, rfl⟩
  have hperform := h ⟨some ⟨B, p, 0, 0, 0⟩, [], []⟩
  rw [performRead_ready hready, performRead_ready hready] at hperform
  exact finish_inj (Host.Outcome.next.inj hperform)

/-- Every command but REMAINING runs one decoder, which ends within the buffer and meets the command's tables. -/
theorem exec_endsWithin_and_yields {i : Instr} (h : i ≠ .remaining) :
    ∃ op : Buffer → Read Value, (∀ s, exec i s = performRead op s) ∧
      ∀ B p, p ≤ B.bits → EndsWithin B p p ((op B).run p) ∧
        Yields (MayRaise i) (fun k v => mayConsume i k ∧ mayReturn i B v) p ((op B).run p) := by
  obtain ⟨op, hop, hends⟩ := exec_endsWithin h
  obtain ⟨op', hop', hyields⟩ := exec_yields h
  have hrun := run_eq_of_performRead_eq fun s => (hop s).symm.trans (hop' s)
  exact ⟨op, hop, fun B p hp => ⟨hends B p hp, hrun B p ▸ hyields B p⟩⟩

/-- The position of a captured error, by its code (R226). -/
theorem DetectedAt.by_code {B : Buffer} {start q : Nat} {e : ErrorKind} (h : DetectedAt B start e q) :
    (errorCode e = 1 → q = B.bits) ∧ (errorCode e = 2 → q = start) ∧
      (errorCode e = 3 → q = start + 40 ∨ q = start + 80) := by
  refine ⟨fun he => ?_, fun he => ?_, fun he => ?_⟩
  · obtain rfl : e = .endOfBuffer := errorCode_inj.1 he
    exact h
  · obtain rfl : e = .invalidWidth := errorCode_inj.1 he
    exact h
  · obtain rfl : e = .malformedVarInt := errorCode_inj.1 he
    exact h

/-- Settles O14: `EndsWithin` gives the positions, `Yields` the rows of the tables. -/
theorem everyCommandSucceedsOrIsCaptured : Obligations.EveryCommandSucceedsOrIsCaptured := by
  intro i s b h hp
  by_cases hi : i = .remaining
  · subst hi
    refine .inl ⟨0, .natural (remainingBits b.buf b.pos), rfl, ⟨_, rfl, Nat.sub_le _ _⟩, hp, ?_⟩
    rw [exec_remaining, performQuery_eq h.1, State.succeeds_zero h.1]
  · obtain ⟨op, hop, hdecoder⟩ := exec_endsWithin_and_yields hi
    obtain ⟨hends, hyields⟩ := hdecoder b.buf b.pos hp
    rw [hop]
    generalize hr : (op b.buf).run b.pos = r at hends hyields
    cases hyields with
    | @ok v k holds =>
      obtain ⟨hconsume, hreturn⟩ := holds
      cases hends with
      | ok _ hbound => exact .inl ⟨k, v, hconsume, hreturn, hbound, performRead_ok h hr⟩
    | @error e q kind =>
      cases hends with
      | error hforward hbound hdetected =>
        obtain ⟨hendOfBuffer, hwidth, hmalformed⟩ := hdetected.by_code
        exact .inr ⟨errorCode e, q, kind, hforward, hbound, hendOfBuffer, hwidth, hmalformed, performRead_error h hr⟩

end Sys2Proof.Machine

/-! ## The encoding and the assembly language

What `decodeFields` reads is said once, as an `↔` (R61 to R64), and the statements about the decoder are read off it. The
assembler's round trip (R68) is put together from the words of a line, the mnemonic's command and the operand's digits. -/

namespace Sys2Proof

open Sys2Proof.Machine

/-! ### Commands by opcode and operand (R62, R63) -/

/-- Well-formedness is the bound on the operand alone. -/
theorem Instr.wf_iff_operandOf_le (i : Instr) : i.wf = true ↔ operandOf i ≤ maxOperand := by
  cases i <;> simp [Instr.wf, operandOf]

theorem operandOf_eq_zero {i : Instr} (h : takesOperand i = false) : operandOf i = 0 := by
  cases i
  case readBits | readByteArray | readBytesForBits | readAngle => cases h
  all_goals rfl

@[simp] theorem opcode_withOperand (n : Nat) (i : Instr) : opcode (withOperand n i) = opcode i := by
  cases i <;> rfl

@[simp] theorem mnemonic_withOperand (n : Nat) (i : Instr) : mnemonic (withOperand n i) = mnemonic i := by
  cases i <;> rfl

@[simp] theorem takesOperand_withOperand (n : Nat) (i : Instr) : takesOperand (withOperand n i) = takesOperand i := by
  cases i <;> rfl

@[simp] theorem withOperand_withOperand (n m : Nat) (i : Instr) : withOperand n (withOperand m i) = withOperand n i := by
  cases i <;> rfl

@[simp] theorem withOperand_operandOf (i : Instr) : withOperand (operandOf i) i = i := by
  cases i <;> rfl

theorem operandOf_withOperand {i : Instr} (h : takesOperand i = true) (n : Nat) : operandOf (withOperand n i) = n := by
  cases i
  case readBits | readByteArray | readBytesForBits | readAngle => rfl
  all_goals cases h

theorem withOperand_of_not_takesOperand {i : Instr} (h : takesOperand i = false) (n : Nat) : withOperand n i = i := by
  cases i
  case readBits | readByteArray | readBytesForBits | readAngle => cases h
  all_goals rfl

/-- Up to its operand every command stands in the table of R63. -/
theorem withOperand_zero_mem_commands (i : Instr) : withOperand 0 i ∈ commands := by
  cases i <;> simp [withOperand, commands]

/-! ### The decoder (R61, R64) -/

theorem decodePlain_eq_ok {i j : Instr} {op : BitVec 8} {n : BitVec 24} :
    decodePlain i op n = .ok j ↔ n = 0 ∧ i = j := by
  unfold decodePlain
  split
  · next hn => simp [hn]
  · next hn => exact ⟨nofun, fun ⟨hzero, _⟩ => absurd hzero hn⟩

/-- An operand-less form spells a command with its own opcode and operand 0. -/
theorem fields_of_decodePlain {i j : Instr} {op : BitVec 8} {n : BitVec 24} (h : decodePlain i op n = .ok j)
    (hop : opcode i = op) (hplain : takesOperand i = false) : opcode j = op ∧ operandOf j = n.toNat := by
  obtain ⟨rfl, rfl⟩ := decodePlain_eq_ok.1 h
  exact ⟨hop, operandOf_eq_zero hplain⟩

/-- Branches 2, 4, 5 and 15 of R64 are the operand forms, branch 19 the reserved opcodes. -/
theorem fields_of_decodeFields {op : BitVec 8} {n : BitVec 24} {i : Instr} (h : decodeFields op n = .ok i) :
    opcode i = op ∧ operandOf i = n.toNat := by
  unfold decodeFields at h
  split at h
  case h_2 | h_4 | h_5 | h_15 =>
    obtain rfl := Except.ok.inj h
    exact ⟨rfl, rfl⟩
  case h_19 => cases h
  all_goals exact fields_of_decodePlain h rfl rfl

theorem decodeFields_of_fields {op : BitVec 8} {n : BitVec 24} {i : Instr} (hop : opcode i = op)
    (hn : operandOf i = n.toNat) : decodeFields op n = .ok i := by
  subst hop
  cases i
  case readBits | readByteArray | readBytesForBits | readAngle =>
    subst hn
    rfl
  all_goals
    obtain rfl : n = 0 := BitVec.eq_of_toNat_eq hn.symm
    rfl

/-- The decoder reads off the two fields of a word: the command with that opcode and that operand (R64). -/
theorem decode_eq_ok_iff {w : Command} {i : Instr} :
    decode w = .ok i ↔ opcode i = opField w ∧ operandOf i = (nField w).toNat :=
  ⟨fields_of_decodeFields, fun ⟨hop, hn⟩ => decodeFields_of_fields hop hn⟩

theorem wf_of_decode {w : Command} {i : Instr} (h : decode w = .ok i) : i.wf = true := by
  obtain ⟨-, hn⟩ := decode_eq_ok_iff.1 h
  have := (nField w).isLt
  exact (Instr.wf_iff_operandOf_le i).2 (show operandOf i ≤ 16777215 by omega)

/-- Settles O1: the fields of the encoding are the opcode and the operand, which `N` holds unchanged. -/
theorem decodeOfEncodeIsTheCommand : Obligations.DecodeOfEncodeIsTheCommand := by
  intro i hi
  have hle : operandOf i ≤ 16777215 := (Instr.wf_iff_operandOf_le i).1 hi
  have hoperand : operandOf i = (BitVec.ofNat 24 (operandOf i)).toNat := by
    rw [BitVec.toNat_ofNat, Nat.mod_eq_of_lt (by omega)]
  rw [decode_encode]
  exact decodeFields_of_fields rfl hoperand

theorem encode_of_decode {w : Command} {i : Instr} (h : decode w = .ok i) : encode i = w := by
  obtain ⟨hop, hn⟩ := decode_eq_ok_iff.1 h
  rw [encode, hop, hn, BitVec.ofNat_toNat, BitVec.setWidth_eq, fields_append]

/-- Settles O2: a word is its two fields side by side, and the operand comes from 24 bits. -/
theorem encodeOfDecodeIsTheWord : Obligations.EncodeOfDecodeIsTheWord :=
  fun _ _ h => ⟨wf_of_decode h, encode_of_decode h⟩

/-! ### The opcode map as a list of words (R64) -/

theorem opField_toNat (w : Command) : (opField w).toNat = w.toNat / 2 ^ 24 := by
  have := w.isLt
  rw [opField, BitVec.extractLsb'_toNat, Nat.shiftRight_eq_div_pow]
  omega

theorem nField_toNat (w : Command) : (nField w).toNat = w.toNat % 2 ^ 24 := by
  rw [nField, BitVec.extractLsb'_toNat, Nat.shiftRight_zero]

theorem decode_eq_ok_iff_toNat {w : Command} {i : Instr} :
    decode w = .ok i ↔ (opcode i).toNat = w.toNat / 2 ^ 24 ∧ operandOf i = w.toNat % 2 ^ 24 := by
  rw [decode_eq_ok_iff, ← opField_toNat, ← nField_toNat, BitVec.toNat_inj]

/-- The operand forms' opcodes. -/
theorem exists_opcode_of_takesOperand :
    ∀ op ∈ [0x02, 0x04, 0x05, 0x30], ∃ i ∈ commands, takesOperand i = true ∧ (opcode i).toNat = op := by
  decide

/-- The operand-less opcodes. -/
theorem exists_opcode_of_not_takesOperand :
    ∀ op ∈ [0x01, 0x03, 0x10, 0x11, 0x12, 0x13, 0x14, 0x20, 0x21, 0x22, 0x23, 0x31, 0x32, 0x33],
      ∃ i ∈ commands, takesOperand i = false ∧ (opcode i).toNat = op := by
  decide

theorem exists_decode_of_legalWord {w : Command} (h : legalWord w) : ∃ i, decode w = .ok i := by
  obtain hop | ⟨hop, hn⟩ := h
  · obtain ⟨i, -, htakes, hi⟩ := exists_opcode_of_takesOperand _ hop
    exact ⟨withOperand (w.toNat % 2 ^ 24) i,
      decode_eq_ok_iff_toNat.2 ⟨by rw [opcode_withOperand, hi], operandOf_withOperand htakes _⟩⟩
  · obtain ⟨i, -, hplain, hi⟩ := exists_opcode_of_not_takesOperand _ hop
    exact ⟨i, decode_eq_ok_iff_toNat.2 ⟨hi, by rw [operandOf_eq_zero hplain, hn]⟩⟩

theorem legalWord_of_decode {w : Command} {i : Instr} (h : decode w = .ok i) : legalWord w := by
  obtain ⟨hop, hn⟩ := decode_eq_ok_iff_toNat.1 h
  rw [legalWord, ← hop, ← hn]
  cases i
  case readBits | readByteArray | readBytesForBits | readAngle => exact .inl (by simp [opcode])
  all_goals exact .inr ⟨by simp [opcode], rfl⟩

/-- Settles O3: the legal words are those that decode, and a command that decodes has the word's fields. -/
theorem legalWordsAreThoseOfTheOpcodeMap : Obligations.LegalWordsAreThoseOfTheOpcodeMap := by
  intro w
  constructor
  · intro hlegal
    obtain ⟨i, hi⟩ := exists_decode_of_legalWord hlegal
    exact ⟨i, hi, decode_eq_ok_iff_toNat.1 hi⟩
  · intro hillegal
    cases hd : decode w with
    | ok i => exact absurd (legalWord_of_decode hd) hillegal
    | error e => exact ⟨e, rfl⟩

/-- Settles O4, by evaluating the decoder on each word. -/
theorem wordsOfTheTestVectorsDecode : Obligations.WordsOfTheTestVectorsDecode :=
  ⟨rfl, rfl, rfl, rfl, rfl, rfl, rfl, rfl, rfl, rfl, rfl, rfl⟩

end Sys2Proof

namespace Sys2Proof.Machine

/-! ### A command word that decodes (R60, R228) -/

theorem step_of_decode {s : State} {w : Command} {rest : List HostAction} {i : Instr} (hw : s.pending = .command w :: rest)
    (hd : decode w = .ok i) : step s = exec i { s with pending := rest } := by
  rw [step_command hw, hd]

/-- All 32 bits of a word are handed over. -/
theorem State.withFetchWord_toNat (s : State) (w : Command) : s.withFetchWord 32 w.toNat = sendFirst w s := by
  rw [State.withFetchWord, Nat.mod_eq_of_lt w.isLt, BitVec.ofNat_toNat, BitVec.setWidth_eq]

/-- Settles O5: the word sent first is the next one of the script, and taking it gives the state back. -/
theorem stepPerformsTheDecodedCommand : Obligations.StepPerformsTheDecodedCommand := by
  intro s w i hd
  refine ⟨fun rest hw => step_of_decode hw hd, ?_⟩
  rw [State.withFetchWord_toNat, step_of_decode (sendFirst_pending s w) hd]
  rfl

/-! ### The words of a line (R68) -/

/-- A character that neither separates words nor begins a comment. -/
def isWordChar (c : Char) : Bool := !isSpace c && c != ';'

theorem isWordChar_iff {c : Char} : isWordChar c = true ↔ isSpace c = false ∧ c ≠ ';' := by
  simp [isWordChar]

theorem wordsFrom_cons_of_isWordChar {c : Char} (h : isWordChar c = true) (word cs : List Char) :
    wordsFrom word (c :: cs) = wordsFrom (c :: word) cs := by
  obtain ⟨hspace, -⟩ := isWordChar_iff.1 h
  rw [wordsFrom, hspace, if_neg Bool.false_ne_true]

/-- A run of word characters joins the current word. -/
theorem wordsFrom_append {m : List Char} (hm : ∀ c ∈ m, isWordChar c = true) (word rest : List Char) :
    wordsFrom word (m ++ rest) = wordsFrom (m.reverse ++ word) rest := by
  induction m generalizing word with
  | nil => rfl
  | cons c m ih =>
    obtain ⟨hc, hrest⟩ := List.forall_mem_cons.1 hm
    rw [List.cons_append, wordsFrom_cons_of_isWordChar hc, ih hrest, List.reverse_cons, List.append_assoc]
    rfl

theorem stripComment_append {m : List Char} (hm : ∀ c ∈ m, isWordChar c = true) (rest : List Char) :
    stripComment (m ++ rest) = m ++ stripComment rest :=
  List.takeWhile_append_of_pos fun c hc => decide_eq_true (isWordChar_iff.1 (hm c hc)).2

theorem words_of_word {m : List Char} (hm : ∀ c ∈ m, isWordChar c = true) (hne : m ≠ []) :
    wordsFrom [] (stripComment m) = [m] := by
  have hstrip : stripComment m = m ++ [] := by simpa [stripComment] using stripComment_append hm []
  rw [hstrip, wordsFrom_append hm]
  simp [wordsFrom, hne]

theorem words_of_word_space {m : List Char} (hm : ∀ c ∈ m, isWordChar c = true) (hne : m ≠ []) (rest : List Char) :
    wordsFrom [] (stripComment (m ++ ' ' :: rest)) = m :: wordsFrom [] (stripComment rest) := by
  have hstrip : stripComment (' ' :: rest) = ' ' :: stripComment rest := rfl
  rw [stripComment_append hm, hstrip, wordsFrom_append hm]
  simp [wordsFrom, isSpace, hne]

/-! ### Mnemonics (R63) -/

theorem findCommand_mnemonic (i : Instr) : findCommand (mnemonic i) = some (withOperand 0 i) := by
  have htable : ∀ j ∈ commands, findCommand (mnemonic j) = some j := by decide
  simpa using htable _ (withOperand_zero_mem_commands i)

theorem mnemonic_ne_nil (i : Instr) : mnemonic i ≠ [] := by
  have htable : ∀ j ∈ commands, mnemonic j ≠ [] := by decide
  simpa using htable _ (withOperand_zero_mem_commands i)

theorem isWordChar_of_mem_mnemonic (i : Instr) : ∀ c ∈ mnemonic i, isWordChar c = true := by
  have htable : ∀ j ∈ commands, (mnemonic j).all isWordChar = true := by decide
  simpa using htable _ (withOperand_zero_mem_commands i)

/-! ### Decimal operands -/

theorem isWordChar_digitChar : ∀ d < 10, isWordChar (Nat.digitChar d) = true := by decide

theorem digitChar_ne_x : ∀ d < 10, Nat.digitChar d ≠ 'x' := by decide

theorem digitValue_digitChar : ∀ d < 10, digitValue (Nat.digitChar d) = some d := by decide

theorem digitsFrom_digitChar_cons {d : Nat} (hd : d < 10) (v : Nat) (cs : List Char) :
    digitsFrom 10 v (Nat.digitChar d :: cs) = digitsFrom 10 (v * 10 + d) cs := by
  simp only [digitsFrom, digitValue_digitChar d hd, hd, if_true]

/-- Reading back the digits of `n`, and what stands after them. -/
theorem digitsFrom_decimalFrom {fuel n : Nat} (h : n < 10 ^ (fuel + 1)) (acc : List Char) :
    digitsFrom 10 0 (decimalFrom (fuel + 1) n acc) = digitsFrom 10 n acc := by
  induction fuel generalizing n acc with
  | zero =>
    rw [decimalFrom, if_pos (by omega), digitsFrom_digitChar_cons (by omega), Nat.zero_mul, Nat.zero_add]
  | succ fuel ih =>
    rw [decimalFrom]
    split
    · next hn => rw [digitsFrom_digitChar_cons hn, Nat.zero_mul, Nat.zero_add]
    · have hdiv : n / 10 < 10 ^ (fuel + 1) := by omega
      rw [ih hdiv, digitsFrom_digitChar_cons (Nat.mod_lt _ (by decide)), Nat.div_add_mod']

theorem decimalFrom_ne_nil {fuel n : Nat} {acc : List Char} (h : acc ≠ [] ∨ 0 < fuel) : decimalFrom fuel n acc ≠ [] := by
  induction fuel generalizing n acc with
  | zero => simpa [decimalFrom] using h
  | succ fuel ih =>
    rw [decimalFrom]
    split
    · exact List.cons_ne_nil _ _
    · exact ih (.inl (List.cons_ne_nil _ _))

/-- What holds of the ten digits and of the characters after them holds of every character. -/
theorem forall_mem_decimalFrom {P : Char → Prop} (hdigit : ∀ d < 10, P (Nat.digitChar d)) {fuel n : Nat}
    {acc : List Char} (hacc : ∀ c ∈ acc, P c) : ∀ c ∈ decimalFrom fuel n acc, P c := by
  induction fuel generalizing n acc with
  | zero => exact hacc
  | succ fuel ih =>
    rw [decimalFrom]
    split
    · next hn => exact List.forall_mem_cons.2 ⟨hdigit n hn, hacc⟩
    · exact ih (List.forall_mem_cons.2 ⟨hdigit _ (Nat.mod_lt _ (by decide)), hacc⟩)

theorem isWordChar_of_mem_decimal (n : Nat) : ∀ c ∈ decimal n, isWordChar c = true :=
  forall_mem_decimalFrom isWordChar_digitChar (List.forall_mem_nil _)

theorem x_notMem_decimal (n : Nat) : 'x' ∉ decimal n := fun hx =>
  forall_mem_decimalFrom (P := (· ≠ 'x')) digitChar_ne_x (List.forall_mem_nil _) 'x' hx rfl

theorem decimal_ne_nil (n : Nat) : decimal n ≠ [] := decimalFrom_ne_nil (.inr (by decide))

/-- A numeral without an `x` is read in base ten. -/
theorem numeral_eq_digitsFrom {ds : List Char} (hne : ds ≠ []) (hx : 'x' ∉ ds) : numeral ds = digitsFrom 10 0 ds := by
  unfold numeral
  split
  · exact absurd rfl hne
  · exact absurd (by simp) hx
  · exact absurd (by simp) hx
  · rfl

/-- Eight digits hold every operand (R62). -/
theorem numeral_decimal {n : Nat} (h : n ≤ maxOperand) : numeral (decimal n) = some n := by
  have hdigits : n < 10 ^ (7 + 1) := lt_of_le_of_lt h (by decide)
  rw [numeral_eq_digitsFrom (decimal_ne_nil n) (x_notMem_decimal n), decimal, digitsFrom_decimalFrom hdigits]
  rfl

/-! ### Lines (R68) -/

theorem assembleLine_unknown {line m : List Char} {operands : List (List Char)}
    (hwords : wordsFrom [] (stripComment line) = m :: operands) (hm : findCommand m = none) :
    assembleLine line = .error .unknownMnemonic := by
  simp only [assembleLine, hwords, hm]

theorem assembleLine_plain {line m : List Char} {i : Instr} (hwords : wordsFrom [] (stripComment line) = [m])
    (hm : findCommand m = some i) (hplain : takesOperand i = false) : assembleLine line = .ok (encode i) := by
  simp [assembleLine, hwords, hm, hplain]

theorem assembleLine_operand {line m a : List Char} {i : Instr} {n : Nat}
    (hwords : wordsFrom [] (stripComment line) = [m, a]) (hm : findCommand m = some i) (htakes : takesOperand i = true)
    (ha : numeral a = some n) (hn : n ≤ maxOperand) : assembleLine line = .ok (encode (withOperand n i)) := by
  simp only [assembleLine, hwords, hm, htakes, ha, hn, if_true]

theorem assembleLine_mnemonic {i : Instr} (hplain : takesOperand i = false) :
    assembleLine (mnemonic i) = .ok (encode i) := by
  have hwords := words_of_word (isWordChar_of_mem_mnemonic i) (mnemonic_ne_nil i)
  rw [assembleLine_plain hwords (findCommand_mnemonic i) (by rw [takesOperand_withOperand, hplain]),
    withOperand_of_not_takesOperand hplain]

theorem assembleLine_mnemonic_decimal {i : Instr} (htakes : takesOperand i = true) (hwf : i.wf = true) :
    assembleLine (mnemonic i ++ ' ' :: decimal (operandOf i)) = .ok (encode i) := by
  have hle := (Instr.wf_iff_operandOf_le i).1 hwf
  have hwords : wordsFrom [] (stripComment (mnemonic i ++ ' ' :: decimal (operandOf i))) =
      [mnemonic i, decimal (operandOf i)] := by
    rw [words_of_word_space (isWordChar_of_mem_mnemonic i) (mnemonic_ne_nil i),
      words_of_word (isWordChar_of_mem_decimal _) (decimal_ne_nil _)]
  rw [assembleLine_operand hwords (findCommand_mnemonic i) (by rw [takesOperand_withOperand, htakes])
    (numeral_decimal hle) hle, withOperand_withOperand, withOperand_operandOf]

theorem disassemble_of_decode {w : Command} {i : Instr} (h : decode w = .ok i) :
    disassemble w = if takesOperand i then mnemonic i ++ ' ' :: decimal (operandOf i) else mnemonic i := by
  simp only [disassemble, h]

theorem disassemble_of_illegal {w : Command} {e : Illegal} (h : decode w = .error e) :
    disassemble w = ".word".toList ++ ' ' :: ("0x".toList ++ hexFrom 8 w.toNat []) := by
  simp only [disassemble, h]
  rfl

/-- A command's disassembly is its mnemonic alone, or its mnemonic and its operand. -/
theorem assembleLine_disassemble {w : Command} {i : Instr} (h : decode w = .ok i) :
    assembleLine (disassemble w) = .ok w := by
  rw [disassemble_of_decode h]
  split
  · next htakes => rw [assembleLine_mnemonic_decimal htakes (wf_of_decode h), encode_of_decode h]
  · next hplain => rw [assembleLine_mnemonic (Bool.eq_false_of_not_eq_true hplain), encode_of_decode h]

/-- Whatever follows `.word`, it is no mnemonic of R63 (log entry 8). -/
theorem assembleLine_dotWord (rest : List Char) :
    assembleLine (".word".toList ++ ' ' :: rest) = .error .unknownMnemonic :=
  assembleLine_unknown (words_of_word_space (List.all_eq_true.1 (by decide)) (by decide) rest) (by decide)

/-- Settles O45: the disassembly of a command is one line of its mnemonic and operand, that of an illegal word a `.word` line. -/
theorem assemblerReadsTheDisassembly : Obligations.AssemblerReadsTheDisassembly := by
  intro w
  refine ⟨fun ⟨i, hi⟩ => assembleLine_disassemble hi, fun ⟨e, he⟩ => ?_⟩
  rw [disassemble_of_illegal he]
  exact assembleLine_dotWord _

end Sys2Proof.Machine

/-! ## The cursor primitives (40_cursor.md)

The decoders' results stand in the laws about `takeBit`, `readBits`, `readByteArray` and `readBytesForBits`. Here each becomes
what the command does to a block that is not faulted, and a command word is read back to the command. -/

namespace Sys2Proof

/-- The word of an opcode and an operand spells their command; `base` is the opcode in its place (R61, R64). -/
theorem decode_base_add_operand {i : Instr} {base : Nat} (hbase : (opcode i).toNat * 2 ^ 24 = base)
    (h : operandOf i ≤ maxOperand) : decode (BitVec.ofNat 32 (base + operandOf i)) = .ok i := by
  have hop := (opcode i).isLt
  have hoperand : operandOf i ≤ 16777215 := h
  rw [decode_eq_ok_iff_toNat, BitVec.toNat_ofNat]
  constructor <;> omega

end Sys2Proof

namespace Sys2Proof.Machine

section CursorCommands
variable {s : State} {b : Block}

/-- READBITS fails as its decoder does. -/
theorem exec_readBits_of_error {n q : Nat} {e : ErrorKind} (h : s.Ready b)
    (hop : (readBits b.buf n).run b.pos = .error e q) : exec (.readBits n) s = .next (s.fails b (errorCode e) q) :=
  performRead_map_error (op := (readBits · n)) (f := .unsigned) h hop

/-- READBYTEARRAY ends as its decoder does when that succeeds. -/
theorem exec_readByteArray_of_ok {count k : Nat} {bs : List Byte} (h : s.Ready b)
    (hop : (readByteArray b.buf count).run b.pos = .ok bs (b.pos + k)) :
    exec (.readByteArray count) s = .next (s.succeeds b k (.bytes bs)) :=
  performRead_map_ok (op := (readByteArray · count)) (f := .bytes) h hop

/-- READBYTESFORBITS ends as its decoder does when that succeeds. -/
theorem exec_readBytesForBits_of_ok {nbits k : Nat} {bs : List Byte} (h : s.Ready b)
    (hop : (readBytesForBits b.buf nbits).run b.pos = .ok bs (b.pos + k)) :
    exec (.readBytesForBits nbits) s = .next (s.succeeds b k (.bytes bs)) :=
  performRead_map_ok (op := (readBytesForBits · nbits)) (f := .bytes) h hop

end CursorCommands

/-! ### Zero-size reads (R108)

Nothing bounds the cursor here: the decoders take no bit, so they do not ask whether one is left. -/

section ZeroSize
variable (B : Buffer) (p : Nat)

theorem readBits_zero : (readBits B 0).run p = .ok 0 p := by
  rw [readBits, if_neg (by decide), readBitsFrom, read_pure]

theorem readAngle_zero : (readAngle B 0).run p = .ok { neg := false, mag := 0 } p := by
  rw [readAngle, read_bind_ok (readBits_zero B p), read_pure, Nat.zero_mul, ratio]
  rfl

theorem readByteArray_zero : (readByteArray B 0).run p = .ok [] p := by
  rw [readByteArray, read_pure]

theorem readBytesForBits_zero : (readBytesForBits B 0).run p = .ok [] p := by
  have hfull : (readFullBytes B (0 / 8)).run p = .ok [] p := by rw [Nat.zero_div, readFullBytes, read_pure]
  rw [readBytesForBits, read_bind_ok hfull, if_pos (Nat.zero_mod 8), read_pure]

end ZeroSize

/-! ### The statements -/

/-- Settles O21: `readBits` gives the field, the end of the buffer or InvalidWidth. -/
theorem readBitsReturnsTheField : Obligations.ReadBitsReturnsTheField := by
  refine ⟨fun n hn => decode_base_add_operand (i := .readBits n) (by simp [opcode]) hn,
    fun n s b h hp => ⟨?_, ?_, ?_⟩⟩
  · exact fun hn hb => ⟨fieldAt_lt _ _ _, exec_readBits_ok h hn hb⟩
  · exact fun hn hb => exec_readBits_of_error h (readBits_end hn hp hb)
  · exact fun hn => exec_readBits_of_error h (readBits_wide hn)

/-- Settles O23: a count of at least one is some groups and a final one, which is full, partial or empty. -/
theorem readByteArrayReadsGroupsAndAPartialLast : Obligations.ReadByteArrayReadsGroupsAndAPartialLast := by
  refine ⟨fun n hn => decode_base_add_operand (i := .readByteArray n) (by simp [opcode]) hn,
    fun count s b h hp => ⟨?_, ?_, ?_⟩⟩
  · exact fun hb => exec_readByteArray_of_ok h (readByteArray_full hb)
  · intro hcount hlast hb
    obtain ⟨k, rfl⟩ := Nat.exists_eq_add_of_le' hcount
    have hend : b.pos + (b.buf.bits - b.pos) = b.buf.bits := Nat.add_sub_cancel' hp
    refine exec_readByteArray_of_ok h ?_
    rw [hend]
    exact readByteArray_partial hlast hb
  · intro hcount hb
    obtain ⟨k, rfl⟩ := Nat.exists_eq_add_of_le' hcount
    exact performRead_map_error (op := (readByteArray · (k + 1))) (f := .bytes) h (readByteArray_end hp hb)

/-- Settles O24: `readBytesForBits` gives all its bits or finds the end of the buffer. -/
theorem readBytesForBitsReadsExactlyItsBits : Obligations.ReadBytesForBitsReadsExactlyItsBits := by
  refine ⟨fun n hn => decode_base_add_operand (i := .readBytesForBits n) (by simp [opcode]) hn,
    fun nbits s b h hp => ⟨?_, ?_⟩⟩
  · exact fun hb => exec_readBytesForBits_of_ok h (readBytesForBits_ok hb)
  · exact fun hb =>
      performRead_map_error (op := (readBytesForBits · nbits)) (f := .bytes) h (readBytesForBits_end hp hb)

/-- Settles O20: `takeBit` is the whole command. -/
theorem nextBitReturnsTheBitAtTheCursor : Obligations.NextBitReturnsTheBitAtTheCursor := by
  refine ⟨rfl, fun s b h _ => ⟨?_, ?_⟩⟩
  · exact fun hb => performRead_map_ok (op := takeBit) (f := .bit) h (takeBit_ok hb)
  · exact fun hb => performRead_map_error (op := takeBit) (f := .bit) h (takeBit_end hb.ge)

/-- Settles O22: REMAINING is a query of the block, answered whether or not it is faulted. -/
theorem remainingIsExactAndChangesNothing : Obligations.RemainingIsExactAndChangesNothing :=
  ⟨rfl, fun s _ hb => (exec_remaining s).trans (performQuery_eq hb)⟩

/-- Settles O25: no decoder of size 0 takes a bit. -/
theorem zeroSizeReadsConsumeNothing : Obligations.ZeroSizeReadsConsumeNothing := by
  intro s b h
  refine ⟨?_, ?_, ?_, ?_⟩
  · exact performRead_map_ok (op := (readBits · 0)) (f := .unsigned) h (readBits_zero _ _)
  · exact performRead_map_ok (op := (readAngle · 0)) (f := .quantized) h (readAngle_zero _ _)
  · exact exec_readByteArray_of_ok h (readByteArray_zero _ _)
  · exact exec_readBytesForBits_of_ok h (readBytesForBits_zero _ _)

end Sys2Proof.Machine

/-! ## The variable-width integers (41_varint.md)

BitVar and the field path are formats whose first bits say how long they are. A read of such a format either has all its bits or
runs to the end of the buffer (R226), which `ReadsExactly` says and sequencing keeps. The VarUInt commands share their clauses,
which come from the laws about `readVarUInt`. -/

namespace Sys2Proof.Machine

/-! ### Reads of a known length -/

/-- From a cursor `p` within the buffer, `x` reads `n` bits and returns `v`, or consumes every remaining bit and
fails (R226). -/
def ReadsExactly {α : Type} (B : Buffer) (x : Read α) (p n : Nat) (v : α) : Prop :=
  p ≤ B.bits → x.run p = if p + n ≤ B.bits then .ok v (p + n) else .error .endOfBuffer B.bits

section ReadsExactly
variable {α β : Type} {B : Buffer} {p n m : Nat}

theorem readsExactly_pure (v : α) : ReadsExactly B (pure v) p 0 v := by
  intro hp
  rw [Nat.add_zero, if_pos hp, read_pure]

theorem takeBit_readsExactly : ReadsExactly B (takeBit B) p 1 (bitAt B p) := by
  intro hp
  split
  · next hb => exact takeBit_ok hb
  · next hb =>
    obtain rfl : p = B.bits := by omega
    exact takeBit_end hp

theorem readBits_readsExactly (hn : n ≤ 32) : ReadsExactly B (readBits B n) p n (fieldAt B p n) := by
  intro hp
  split
  · next hb => exact readBits_ok hn hb
  · next hb => exact readBits_end hn hp (by omega)

/-- Reads in sequence: the lengths add up. -/
theorem ReadsExactly.bind {x : Read α} {f : α → Read β} {v : α} {w : β} (hx : ReadsExactly B x p n v)
    (hf : ReadsExactly B (f v) (p + n) m w) : ReadsExactly B (x >>= f) p (n + m) w := by
  intro hp
  by_cases hb : p + n ≤ B.bits
  · have hrun := hx hp
    rw [if_pos hb] at hrun
    rw [read_bind_ok hrun, hf hb, Nat.add_assoc]
  · have hrun := hx hp
    rw [if_neg hb] at hrun
    rw [read_bind_error hrun, if_neg (by omega)]

/-- A read whose value is wrapped has the length of the read. -/
theorem ReadsExactly.map {x : Read α} {v : α} (f : α → β) (hx : ReadsExactly B x p n v) :
    ReadsExactly B (do return f (← x)) p n (f v) :=
  hx.bind (m := 0) (readsExactly_pure (f v))

/-- A bit whose value is known: the read goes on as the bit says. -/
theorem ReadsExactly.takeBit_bind {f : Bool → Read β} {bit : Bool} {w : β} (hbit : bitAt B p = bit)
    (hf : ReadsExactly B (f bit) (p + 1) m w) : ReadsExactly B (takeBit B >>= f) p (1 + m) w :=
  takeBit_readsExactly.bind (hbit ▸ hf)

/-- The two ends of a command whose decoder reads a known length (R228). -/
theorem ReadsExactly.performs {s : State} {b : Block} {op : Buffer → Read α} {f : α → Value} {v : α}
    (hop : ReadsExactly b.buf (op b.buf) b.pos n v) (h : s.Ready b) (hp : b.pos ≤ b.buf.bits) :
    (b.pos + n ≤ b.buf.bits → performRead (fun B => do return f (← op B)) s = .next (s.succeeds b n (f v))) ∧
      (b.buf.bits < b.pos + n → performRead (fun B => do return f (← op B)) s = .next (s.fails b 1 b.buf.bits)) := by
  have hrun := hop hp
  constructor
  · intro hb
    rw [if_pos hb] at hrun
    exact performRead_map_ok h hrun
  · intro hb
    rw [if_neg (by omega)] at hrun
    exact performRead_map_error h hrun

end ReadsExactly

/-! ### BitVar (R72, R130, R131) -/

/-- The masks of R130 on a 6-bit base: its bits 5:4 in their place. -/
theorem bitVar_tag : ∀ base < 2 ^ 6, base &&& 0x30 = base / 16 * 16 := by decide

/-- Placing the extension above the low 4 bits of the base adds it. -/
theorem bitVar_join (base x : Nat) : (base &&& 0x0F) ||| (x <<< 4) = base % 16 + x * 16 := by
  have hlow : base &&& 0x0F = base % 16 := Nat.and_two_pow_sub_one_eq_mod base 4
  have hlt : base % 16 < 2 ^ 4 := Nat.mod_lt base (by decide)
  rw [hlow, or_shiftLeft_eq_add hlt]
  rfl

theorem bitVarExtension_le (base : Nat) : bitVarExtension base ≤ 28 := by
  unfold bitVarExtension
  split <;> omega

/-- The value of a BitVar fits 32 bits: 4 of the base and at most 28 above them. -/
theorem bitVarValue_lt (B : Buffer) (p : Nat) : bitVarValue B p < 2 ^ 32 := by
  have hext := fieldAt_lt B (p + 6) (bitVarExtension (fieldAt B p 6))
  have hpow := Nat.pow_le_pow_right (n := 2) (by decide) (bitVarExtension_le (fieldAt B p 6))
  rw [bitVarValue]
  omega

/-- Each of the four tags selects its own branch (R131). -/
theorem readBitVar_readsExactly (B : Buffer) (p : Nat) :
    ReadsExactly B (readBitVar B) p (bitVarLength B p) (bitVarValue B p) := by
  refine (readBits_readsExactly (by decide)).bind ?_
  rw [bitVarValue]
  have hbase := fieldAt_lt B p 6
  generalize fieldAt B p 6 = base at hbase
  dsimp only
  rw [bitVar_tag base hbase]
  have htag : base / 16 = 3 ∨ base / 16 = 2 ∨ base / 16 = 1 ∨ base / 16 = 0 := by omega
  simp only [bitVar_join]
  obtain ht | ht | ht | ht := htag <;> rw [bitVarExtension, ht]
  · exact (readBits_readsExactly (by decide)).map _
  · exact (readBits_readsExactly (by decide)).map _
  · exact (readBits_readsExactly (by decide)).map _
  · have hvalue : base % 16 + fieldAt B (p + 6) 0 * 16 = base := by simp only [fieldAt]; omega
    simp only [hvalue]
    exact readsExactly_pure base

/-- Settles O27: the base tells the length, and the value is put together from the base and the extension. -/
theorem readBitVarReadsTheTaggedValue : Obligations.ReadBitVarReadsTheTaggedValue := by
  refine ⟨rfl, fun s b h hp => ?_⟩
  obtain ⟨hok, hend⟩ := (readBitVar_readsExactly b.buf b.pos).performs (f := .unsigned) h hp
  exact ⟨fun hb => ⟨bitVarValue_lt b.buf b.pos, hok hb⟩, hend⟩

/-! ### Field paths (R75, R139) -/

/-- The unary bits of R139 as a loop: `zeros` zero bits have been read, and at most `left` bits are to come before the field. -/
def readPathFrom (B : Buffer) : Nat → Nat → Read Nat
  | 0, zeros => readBits B (pathWidth zeros)
  | left + 1, zeros => do
    if (← takeBit B) then
      readBits B (pathWidth zeros)
    else
      readPathFrom B left (zeros + 1)

theorem readFieldPath_eq_readPathFrom (B : Buffer) : readFieldPath B = readPathFrom B 4 0 := rfl

section FieldPath
variable {B : Buffer} {p left zeros : Nat}

theorem pathField_readsExactly : ReadsExactly B (readBits B (pathWidth zeros)) p (pathWidth zeros)
    (fieldAt B p (pathWidth zeros)) :=
  readBits_readsExactly (by unfold pathWidth; split <;> decide)

/-- The 1 that ends the unary bits, and the data field after it. -/
theorem readPathFrom_one (hone : bitAt B p = true) :
    ReadsExactly B (readPathFrom B (left + 1) zeros) p (1 + pathWidth zeros) (fieldAt B (p + 1) (pathWidth zeros)) :=
  .takeBit_bind hone pathField_readsExactly

/-- The leading zeros, all at once. -/
theorem readPathFrom_zeros {n v : Nat} (hzero : ∀ j, j < zeros → bitAt B (p + j) = false)
    (h : ReadsExactly B (readPathFrom B left zeros) (p + zeros) n v) :
    ReadsExactly B (readPathFrom B (left + zeros) 0) p (zeros + n) v := by
  induction zeros generalizing left n with
  | zero => simpa using h
  | succ zeros ih =>
    have hstep : ReadsExactly B (readPathFrom B (left + 1) zeros) (p + zeros) (1 + n) v :=
      .takeBit_bind (hzero zeros (by omega)) h
    have hbits : zeros + 1 + n = zeros + (1 + n) := Nat.add_assoc zeros 1 n
    have hleft : left + (zeros + 1) = left + 1 + zeros := by omega
    rw [hbits, hleft]
    exact ih (fun j hj => hzero j (by omega)) hstep

/-- The unary bits end with a 1, or after four zeros without one. -/
theorem readFieldPath_readsExactly (h : pathPrefix B p zeros) :
    ReadsExactly B (readFieldPath B) p (pathPrefixLength zeros + pathWidth zeros)
      (fieldAt B (p + pathPrefixLength zeros) (pathWidth zeros)) := by
  obtain ⟨hle, hzero, hone⟩ := h
  rw [readFieldPath_eq_readPathFrom, pathPrefixLength]
  split
  · next hlt =>
    have hpath := readPathFrom_zeros hzero (readPathFrom_one (left := 3 - zeros) (hone hlt))
    rwa [show 3 - zeros + 1 + zeros = 4 by omega, ← Nat.add_assoc] at hpath
  · next hge =>
    obtain rfl : zeros = 4 := by omega
    exact readPathFrom_zeros (left := 0) hzero pathField_readsExactly

end FieldPath

/-- Settles O32: the unary bits tell the length, and the value is the data field alone. -/
theorem readFieldPathReadsTheSelectedWidth : Obligations.ReadFieldPathReadsTheSelectedWidth :=
  ⟨rfl, fun _ _ _ h hp hprefix => (readFieldPath_readsExactly hprefix).performs (f := .unsigned) h hp⟩

/-! ### VarUInts (R73, R132 to R136) -/

/-- Whether a VarUInt is below a bound that its groups before the last do not reach is seen in the last group's data. -/
theorem groupsValue_succ_lt_iff (B : Buffer) (p g top : Nat) :
    groupsValue B p (g + 1) < top * 2 ^ (7 * g) ↔ fieldAt B (p + 8 * g) 7 < top := by
  have hdiv : groupsValue B p (g + 1) / 2 ^ (7 * g) = fieldAt B (p + 8 * g) 7 := by
    rw [groupsValue, Nat.add_mul_div_right _ _ (Nat.two_pow_pos _), Nat.div_eq_of_lt (groupsValue_lt B p g), Nat.zero_add]
  rw [← Nat.div_lt_iff_lt_mul (Nat.two_pow_pos _), hdiv]

/-- Fewer than `G` groups stay below what the last group's data alone can make (R135). -/
theorem groupsValue_lt_of_fewer {G g top : Nat} (B : Buffer) (p : Nat) (htop : 1 ≤ top) (hg : g < G) :
    groupsValue B p g < top * 2 ^ (7 * (G - 1)) :=
  calc groupsValue B p g < 2 ^ (7 * g) := groupsValue_lt B p g
    _ ≤ 2 ^ (7 * (G - 1)) := Nat.pow_le_pow_right (by decide) (by omega)
    _ ≤ top * 2 ^ (7 * (G - 1)) := Nat.le_mul_of_pos_left _ htop

/-- The clauses of a command that reads a VarUInt of at most `G` groups below `2^W`, where `top` is the first data of the last
group that does not fit (R135). -/
theorem varUIntClauses_of_exec {i : Instr} {G W top : Nat} {f result : Nat → Value}
    (hexec : ∀ s, exec i s = performRead (fun B => do return f (← readVarUInt B G W)) s)
    (htop : 1 ≤ top) (hW : top * 2 ^ (7 * (G - 1)) = 2 ^ W) (hresult : ∀ u, u < 2 ^ W → f u = result u) :
    VarUIntClauses i G top result := by
  intro s b h hp
  simp only [hexec]
  have ok {k u : Nat} (hop : (readVarUInt b.buf G W).run b.pos = .ok u (b.pos + k)) :
      performRead (fun B => do return f (← readVarUInt B G W)) s = .next (s.succeeds b k (f u)) :=
    performRead_map_ok (op := (readVarUInt · G W)) h hop
  have error {e : ErrorKind} {q : Nat} (hop : (readVarUInt b.buf G W).run b.pos = .error e q) :
      performRead (fun B => do return f (← readVarUInt B G W)) s = .next (s.fails b (errorCode e) q) :=
    performRead_map_error (op := (readVarUInt · G W)) h hop
  refine ⟨fun g hg hends hb hlast => ?fits, fun hends hb hlast => ?large, fun hall hb => ?unended,
    fun g hg hall hb hend => ?short⟩
  case fits =>
    have hlt : groupsValue b.buf b.pos g < 2 ^ W := by
      rw [← hW]
      obtain hlt | rfl := Nat.lt_or_eq_of_le hg
      · exact groupsValue_lt_of_fewer _ _ htop hlt
      · obtain ⟨hone, -⟩ := hends
        obtain ⟨k, rfl⟩ := Nat.exists_eq_add_of_le' hone
        exact (groupsValue_succ_lt_iff _ _ _ _).2 (hlast rfl)
    rw [← hresult _ hlt]
    exact ok (by rw [readVarUInt_ends hg hb hends, if_neg (Nat.not_le_of_lt hlt)])
  case large =>
    have hle : 2 ^ W ≤ groupsValue b.buf b.pos G := by
      obtain ⟨hone, -⟩ := hends
      obtain ⟨k, rfl⟩ := Nat.exists_eq_add_of_le' hone
      rw [← hW, ← Nat.not_lt]
      exact fun hlt => Nat.not_lt_of_le hlast ((groupsValue_succ_lt_iff _ _ _ _).1 hlt)
    exact error (by rw [readVarUInt_ends (Nat.le_refl G) hb hends, if_pos hle])
  case unended => exact error (readVarUInt_unended hb hall)
  case short => exact error (readVarUInt_end hg hb hend hall)

/-- Settles O28: four groups hold 28 bits, so the fifth one's data has 4 bits left. -/
theorem readVarUInt32ReadsUpToFiveGroups : Obligations.ReadVarUInt32ReadsUpToFiveGroups :=
  ⟨rfl, varUIntClauses_of_exec exec_readVarUInt32 (by decide) (by decide) fun _ _ => rfl⟩

/-- Settles O29: nine groups hold 63 bits, so the tenth one's data has 1 bit left. -/
theorem readVarUInt64ReadsUpToTenGroups : Obligations.ReadVarUInt64ReadsUpToTenGroups :=
  ⟨rfl, varUIntClauses_of_exec exec_readVarUInt64 (by decide) (by decide) fun _ _ => rfl⟩

/-! ### Zig-zag (R137, R138) -/

/-- The mask of an odd image turns every bit over. -/
theorem xor_ones_eq_sub {v : Nat} (hv : v < 2 ^ 32) : v ^^^ 0xFFFFFFFF = 2 ^ 32 - 1 - v := by
  have hnot := congrArg BitVec.toNat (BitVec.xor_allOnes (x := BitVec.ofNat 32 v))
  rw [BitVec.toNat_xor, BitVec.toNat_not, BitVec.toNat_ofNat, Nat.mod_eq_of_lt hv, BitVec.toNat_allOnes] at hnot
  exact hnot

theorem unzigzag_of_even {u : Nat} (hu : u < 2 ^ 32) (heven : u % 2 = 0) : unzigzag u = ((u / 2 : Nat) : Int) := by
  rw [unzigzag, Nat.and_one_is_mod, if_neg (by omega), Nat.xor_zero, Nat.shiftRight_one, signedOf, if_pos (by omega)]

theorem unzigzag_of_odd {u : Nat} (hu : u < 2 ^ 32) (hodd : u % 2 = 1) :
    unzigzag u = -(((u + 1) / 2 : Nat) : Int) := by
  rw [unzigzag, Nat.and_one_is_mod, if_pos hodd, Nat.shiftRight_one, xor_ones_eq_sub (by omega), signedOf, if_neg (by omega)]
  omega

/-- The law of R138. -/
theorem unzigzag_eq {u : Nat} (hu : u < 2 ^ 32) :
    unzigzag u = if u % 2 = 0 then ((u / 2 : Nat) : Int) else -(((u + 1) / 2 : Nat) : Int) := by
  split
  · next heven => exact unzigzag_of_even hu heven
  · next hodd => exact unzigzag_of_odd hu (by omega)

/-- Settles O30: the clauses of a VarUInt32, and R138 on a value that fits. -/
theorem readVarSIntDecodesZigZag : Obligations.ReadVarSIntDecodesZigZag :=
  ⟨rfl, varUIntClauses_of_exec exec_readVarSInt (by decide) (by decide) fun _ hu =>
    congrArg Value.signed (unzigzag_eq hu)⟩

/-- Settles O31: by the law of R138 an even value and an odd one never meet, and the inverse of the rule is computed back. -/
theorem zigZagIsABijection : Obligations.ZigZagIsABijection := by
  refine ⟨fun u hu => ⟨unzigzag_eq hu, ?_⟩, fun u u' hu hu' h => ?_, fun x hlow hhigh => ?_⟩
  · obtain ⟨hlow, hhigh⟩ := unzigzag_range hu
    exact ⟨hlow, by omega⟩
  · rw [unzigzag_eq hu, unzigzag_eq hu'] at h
    split at h <;> split at h <;> omega
  · split
    · next hx => rw [unzigzag_of_even (by omega) (by omega)]; omega
    · next hx => rw [unzigzag_of_odd (by omega) (by omega)]; omega

end Sys2Proof.Machine

/-! ## The byte-aligned and raw decoders (42_raw.md)

The three little-endian commands share their clauses, which come from the laws about `readLittleEndian`; what is left of each is
its own way to wrap the word. READSTRING's two ends are the laws about `readString`. -/

namespace Sys2Proof.Machine

/-! ### Little-endian words (R76, R160 to R163) -/

/-- A little-endian read whose last byte is partial (R161): the field of the bits that remain, all of them consumed. -/
theorem readLittleEndian_partial {B : Buffer} {p m : Nat} (hlow : p + 8 * m < B.bits) (hhigh : B.bits < p + 8 * (m + 1)) :
    (readLittleEndian B (m + 1)).run p = .ok (fieldAt B p (B.bits - p)) (p + (B.bits - p)) := by
  rw [readLittleEndian_ok hlow, Nat.min_eq_right (by omega)]

/-- The clauses of a command that reads a little-endian word of at least one byte and wraps it. -/
theorem littleEndianClauses_of_exec {i : Instr} {m : Nat} {f : Nat → Value}
    (hexec : ∀ s, exec i s = performRead (fun B => do return f (← readLittleEndian B (m + 1))) s) :
    LittleEndianClauses i (m + 1) f := by
  intro s b h hp
  rw [hexec]
  refine ⟨fun hfull => ?full, fun hlow hhigh => ?partialLast, fun hend => ?noLast⟩
  case full => exact performRead_map_ok (op := (readLittleEndian · (m + 1))) h (readLittleEndian_full hfull)
  case partialLast =>
    exact performRead_map_ok (op := (readLittleEndian · (m + 1))) h (readLittleEndian_partial hlow hhigh)
  case noLast => exact performRead_map_error (op := (readLittleEndian · (m + 1))) h (readLittleEndian_end hp hend)

/-- The signed value of R10 is the two's-complement value, whatever the width. -/
theorem signedOf_toNat {n : Nat} (w : BitVec n) : signedOf n w.toNat = w.toInt := by
  cases n with
  | zero => rw [BitVec.eq_nil w]; rfl
  | succ n =>
    have hhalf : 2 * w.toNat < 2 ^ (n + 1) ↔ w.toNat < 2 ^ n := by omega
    rw [signedOf, BitVec.toInt_eq_toNat_cond, Nat.add_sub_cancel, Nat.cast_pow, Nat.cast_ofNat]
    simp only [hhalf]

/-- Settles O33: four bytes, the word as it stands, and the signed reading of R10. -/
theorem readLittleEndian32ReadsTheWord : Obligations.ReadLittleEndian32ReadsTheWord :=
  ⟨rfl, littleEndianClauses_of_exec exec_readLittleEndian32, fun w => congrArg some (signedOf_toNat w)⟩

/-- Settles O34: eight bytes, the word as it stands, and the signed reading of R10. -/
theorem readLittleEndian64ReadsTheWord : Obligations.ReadLittleEndian64ReadsTheWord :=
  ⟨rfl, littleEndianClauses_of_exec exec_readLittleEndian64, fun w => congrArg some (signedOf_toNat w)⟩

/-- Settles O35: the clauses of READLE32, with the word delivered as a pattern. -/
theorem readFloatReturnsThePatternUnchanged : Obligations.ReadFloatReturnsThePatternUnchanged :=
  ⟨rfl, littleEndianClauses_of_exec exec_readFloat⟩

/-! ### Strings (R78, R164) -/

/-- Settles O37: the `k` characters lead either to the terminator or to the end of the buffer. -/
theorem readStringReadsToTheTerminator : Obligations.ReadStringReadsToTheTerminator := by
  refine ⟨rfl, fun k s b h hchars => ⟨fun hbits hzero => ?terminated, fun hlow hhigh => ?unterminated⟩⟩
  case terminated => exact performRead_map_ok (op := readString) (f := .string) h (readString_ok hbits hchars hzero)
  case unterminated => exact performRead_map_error (op := readString) (f := .string) h (readString_end hlow hhigh hchars)

end Sys2Proof.Machine

/-! ## The quantized decoders (43_quantized.md)

Every quantized command reads a format whose first bits fix its length, so `ReadsExactly` carries each decoder against its wire
format, and a successful answer is traced back to it. What is left of a statement is exact rational arithmetic. -/

namespace Sys2Proof.Machine

/-! ### What an answer says of the decoder -/

section Answered
variable {α β : Type} {s : State} {b : Block} {n k : Nat} {v w : Value} {op : Buffer → Read Value}

/-- The two ends of a command whose decoder reads its value in a known length (R228). -/
theorem ReadsExactly.performs_value (hop : ReadsExactly b.buf (op b.buf) b.pos n v) (h : s.Ready b)
    (hp : b.pos ≤ b.buf.bits) :
    (b.pos + n ≤ b.buf.bits → performRead op s = .next (s.succeeds b n v)) ∧
      (b.buf.bits < b.pos + n → performRead op s = .next (s.fails b 1 b.buf.bits)) := by
  simpa only [id, bind_pure] using hop.performs (f := id) h hp

/-- A successful answer tells how the decoder ended. -/
theorem run_of_performRead_succeeds (h : s.Ready b) (hs : performRead op s = .next (s.succeeds b k v)) :
    (op b.buf).run b.pos = .ok v (b.pos + k) := by
  rw [performRead_ready h] at hs
  exact finish_inj (s := s) (b := b) (Host.Outcome.next.inj hs)

/-- A read that ends well returns the value it is to read. -/
theorem ReadsExactly.eq_of_run_ok {B : Buffer} {x : Read α} {p q : Nat} {a c : α} (hx : ReadsExactly B x p n a)
    (hp : p ≤ B.bits) (hrun : x.run p = .ok c q) : c = a := by
  rw [hx hp] at hrun
  split at hrun <;> cases hrun
  rfl

/-- The value that a command answers is the one its decoder reads. -/
theorem ReadsExactly.eq_of_succeeds (hop : ReadsExactly b.buf (op b.buf) b.pos n v) (h : s.Ready b)
    (hp : b.pos ≤ b.buf.bits) (hs : performRead op s = .next (s.succeeds b k w)) : w = v :=
  hop.eq_of_run_ok hp (run_of_performRead_succeeds h hs)

/-- The same of a decoder whose value is wrapped for the response. -/
theorem ReadsExactly.eq_of_map_succeeds {op : Buffer → Read α} {f : α → Value} {a c : α}
    (hop : ReadsExactly b.buf (op b.buf) b.pos n a) (hf : f c = f a → c = a) (h : s.Ready b) (hp : b.pos ≤ b.buf.bits)
    (hs : performRead (fun B => do return f (← op B)) s = .next (s.succeeds b k (f c))) : c = a :=
  hf ((hop.map f).eq_of_succeeds (op := fun B => do return f (← op B)) h hp hs)

/-- A decoder that begins with a bit ends well from within the buffer only (R100). -/
theorem lt_bits_of_takeBit_bind {B : Buffer} {p q : Nat} {f : Bool → Read β} {c : β}
    (h : (takeBit B >>= f).run p = .ok c q) : p < B.bits := by
  obtain ⟨bit, r, hbit, -⟩ := read_bind_eq_ok h
  by_contra hp
  rw [takeBit_end (by omega)] at hbit
  cases hbit

end Answered

/-! ### Exact quotients (R12) -/

theorem ratio_eq_div (num den : Nat) : ratio num den = (num : Rat) / den := by
  rw [ratio, Rat.mkRat_eq_div, Int.cast_natCast]

/-- The real value is 0 for either zero, and for nothing else (R12). -/
theorem SignedMag.value_eq_zero_iff (q : SignedMag) : q.value = 0 ↔ q.mag = 0 := by
  unfold SignedMag.value
  split
  · exact neg_eq_zero
  · rfl

/-! ### Angles (R180, R181) -/

/-- The angle of R180 that the field `k` of width `n` stands for. -/
def angleDegrees (n k : Nat) : Rat := (k : Rat) * 360 / 2 ^ n

theorem ratio_eq_angleDegrees (n k : Nat) : ratio (k * 360) (2 ^ n) = angleDegrees n k := by
  rw [ratio_eq_div, angleDegrees]
  push_cast
  rfl

theorem angleDegrees_nonneg (n k : Nat) : 0 ≤ angleDegrees n k :=
  ratio_eq_angleDegrees n k ▸ ratio_nonneg _ _

theorem angleDegrees_lt {n k : Nat} (hk : k < 2 ^ n) : angleDegrees n k < 360 :=
  ratio_eq_angleDegrees n k ▸ angle_lt hk

theorem angleDegrees_eq_mul (n k : Nat) : angleDegrees n k = k * (360 / 2 ^ n) :=
  mul_div_assoc _ _ _

theorem angleDegrees_strictMono (n : Nat) : StrictMono (angleDegrees n) := by
  intro k k' hk
  rw [angleDegrees_eq_mul, angleDegrees_eq_mul]
  have hk : (k : Rat) < k' := Nat.cast_lt.2 hk
  gcongr

/-- The two closed forms of R181: the common factor 8 of 360 and `2^n` is cancelled when there is one. -/
theorem angleDegrees_closed (n k : Nat) :
    angleDegrees n k = if 3 ≤ n then (k : Rat) * 45 / 2 ^ (n - 3) else (k : Rat) * 360 / 2 ^ n := by
  split
  · next hn =>
    obtain ⟨d, rfl⟩ := Nat.exists_eq_add_of_le' hn
    rw [angleDegrees, Nat.add_sub_cancel, pow_add]
    ring
  · rfl

theorem readAngle_readsExactly {B : Buffer} {p n : Nat} (hn : n ≤ 32) :
    ReadsExactly B (readAngle B n) p n { neg := false, mag := angleDegrees n (fieldAt B p n) } := by
  rw [← ratio_eq_angleDegrees]
  exact (readBits_readsExactly hn).map fun k => SignedMag.mk false (ratio (k * 360) (2 ^ n))

/-- Settles O38: `readAngle` fails as `readBits` does, and scales its field. -/
theorem readAngleScalesToDegrees : Obligations.ReadAngleScalesToDegrees := by
  refine ⟨fun n hn => decode_base_add_operand (i := .readAngle n) (by simp [opcode]) hn, fun n s b h hp => ?_⟩
  have hnarrow (hn : n ≤ 32) := (readAngle_readsExactly hn).performs (op := (readAngle · n)) (f := .quantized) h hp
  refine ⟨fun hn => (hnarrow hn).1, fun hn => (hnarrow hn).2, fun hwide => ?_⟩
  exact performRead_map_error (op := (readAngle · n)) (f := .quantized) h (read_bind_error (readBits_wide hwide))

/-- Settles O39: the answer is `angleDegrees` of the field, and so is that of the larger field. -/
theorem anglesAreMonotoneMultiplesBelow360 : Obligations.AnglesAreMonotoneMultiplesBelow360 := by
  intro n s b hn h hb
  obtain ⟨hok, -⟩ := (readAngle_readsExactly hn).performs (op := (readAngle · n)) (f := .quantized) h (by omega)
  refine ⟨_, hok hb, rfl, angleDegrees_closed _ _, ⟨_, angleDegrees_eq_mul _ _⟩, angleDegrees_nonneg _ _,
    angleDegrees_lt (fieldAt_lt _ _ _), fun s' b' q' h' hb' hs' hlt => ?_⟩
  obtain rfl := (readAngle_readsExactly hn).eq_of_map_succeeds (op := (readAngle · n)) Value.quantized.inj h' (by omega) hs'
  exact angleDegrees_strictMono n hlt

/-! ### Normals (R80 to R82, R182 to R185) -/

section Normals
variable {B : Buffer} {p : Nat}

theorem readNormal_readsExactly : ReadsExactly B (readNormal B) p 12 (normalAt B p) := by
  intro hp
  split
  · next hb => exact readNormal_ok hb
  · next hb => exact readNormal_end hp (by omega)

theorem readComponent_readsExactly (present : Bool) :
    ReadsExactly B (readComponent B present) p (optionalBits present 12) (componentAt B present p) := by
  cases present with
  | true => exact readNormal_readsExactly
  | false => exact readsExactly_pure SignedMag.zero

/-- The model's `t` is the sum of squares of R184. -/
theorem zSquare_eq (x y : SignedMag) :
    zSquare x y = if x.mag ^ 2 + y.mag ^ 2 < 1 then 1 - (x.mag ^ 2 + y.mag ^ 2) else 0 := by
  rw [pow_two, pow_two, zSquare]

/-- The 3f-normal at a position (R81), with the z of R184. -/
def normal3At (B : Buffer) (p : Nat) : Value :=
  let x := componentAt B (bitAt B p) (p + 2)
  let y := componentAt B (bitAt B (p + 1)) (normal3Y B p)
  .normal3 x y { neg := bitAt B (normal3Z B p), sq := zSquare x y }

/-- The bits of R81 in their order: both flags, the components, the sign of z. -/
theorem normal3Length_eq (B : Buffer) (p : Nat) : normal3Length B p =
    1 + (1 + (optionalBits (bitAt B p) 12 + (optionalBits (bitAt B (p + 1)) 12 + 1))) := by
  rw [normal3Length, normal3Z, normal3Y]
  omega

theorem read3fNormal_readsExactly : ReadsExactly B (read3fNormal B) p (normal3Length B p) (normal3At B p) := by
  rw [normal3Length_eq]
  exact takeBit_readsExactly.bind <| takeBit_readsExactly.bind <| (readComponent_readsExactly _).bind <|
    (readComponent_readsExactly _).bind <| takeBit_readsExactly.map _

/-- A present component is at most 1, an absent one is 0 (R183, R184). -/
theorem componentAt_sq_le_one (B : Buffer) (present : Bool) (p : Nat) : (componentAt B present p).mag ^ 2 ≤ 1 := by
  cases present with
  | false => exact (by norm_num : (0 : Rat) ^ 2 ≤ 1)
  | true =>
    have hfield : (fieldAt B (p + 1) 11 : Rat) ≤ 2047 := by
      exact_mod_cast Nat.le_of_lt_succ (fieldAt_lt B (p + 1) 11)
    exact pow_le_one₀ (div_nonneg (Nat.cast_nonneg _) (by norm_num)) ((div_le_one (by norm_num)).2 hfield)

end Normals

/-- Settles O40: the sign bit and the magnitude are the 12 bits of `normalAt`. -/
theorem readNormalReadsSignAndMagnitude : Obligations.ReadNormalReadsSignAndMagnitude :=
  ⟨rfl, fun _ _ h hp => readNormal_readsExactly.performs (f := .quantized) h hp⟩

/-- Settles O41: the flags fix the length, and z is rebuilt from the components read. -/
theorem read3fNormalRebuildsZ : Obligations.Read3fNormalRebuildsZ := by
  refine ⟨rfl, fun s b x y h hp hx hy => ?_⟩
  subst hx hy
  rw [← zSquare_eq]
  exact read3fNormal_readsExactly.performs_value h hp

/-- An answered 3f-normal is the one at the cursor. -/
theorem normal3At_of_exec {s : State} {b : Block} {k : Nat} {v : Value} (h : s.Ready b)
    (hs : exec .read3fNormal s = .next (s.succeeds b k v)) : v = normal3At b.buf b.pos :=
  read3fNormal_readsExactly.eq_of_succeeds h (lt_bits_of_takeBit_bind (run_of_performRead_succeeds h hs)).le hs

/-- Settles O42: below 1 the square of z is what is missing, and each component's square is at most 1. -/
theorem normals3HaveUnitLengthOrNoZ : Obligations.Normals3HaveUnitLengthOrNoZ := by
  intro s b k x y z h hs
  obtain ⟨rfl, rfl, rfl⟩ := Value.normal3.inj (normal3At_of_exec h hs)
  rw [zSquare_eq]
  refine ⟨fun hlt => ?inside, fun hge => ⟨if_neg hge.not_gt, ?bound⟩⟩
  case inside => rw [if_pos hlt, add_sub_cancel]
  case bound =>
    exact (add_le_add (componentAt_sq_le_one _ _ _) (componentAt_sq_le_one _ _ _)).trans_eq one_add_one_eq_two

/-! ### Coords (R82, R186, R187) -/

section Coord
variable {B : Buffer} {p : Nat}

theorem readCoordInt_readsExactly (present : Bool) :
    ReadsExactly B (readCoordInt B present) p (optionalBits present 14)
      (if present then fieldAt B p 14 + 1 else 0) := by
  cases present with
  | true => exact (readBits_readsExactly (by decide)).map (· + 1)
  | false => exact readsExactly_pure 0

theorem readCoordFrac_readsExactly (present : Bool) :
    ReadsExactly B (readCoordFrac B present) p (optionalBits present 5) (if present then fieldAt B p 5 else 0) := by
  cases present with
  | true => exact readBits_readsExactly (n := 5) (by decide)
  | false => exact readsExactly_pure 0

/-- Without a flag the coord is its two flags (R82). -/
theorem coordLength_of_no_flag (h : (bitAt B p || bitAt B (p + 1)) = false) : coordLength B p = 1 + (1 + 0) := by
  obtain ⟨hint, hfrac⟩ := Bool.or_eq_false_iff.1 h
  simp [coordLength, optionalBits, hint, hfrac]

/-- With a flag the sign and the parts it announces follow (R82). -/
theorem coordLength_of_flag (h : (bitAt B p || bitAt B (p + 1)) = true) : coordLength B p =
    1 + (1 + (1 + (optionalBits (bitAt B p) 14 + optionalBits (bitAt B (p + 1)) 5))) := by
  rw [coordLength, h, optionalBits, if_pos rfl]
  omega

theorem coordAt_of_no_flag (h : (bitAt B p || bitAt B (p + 1)) = false) : coordAt B p = SignedMag.zero := by
  rw [coordAt, h, if_neg Bool.false_ne_true]

theorem coordAt_of_flag (h : (bitAt B p || bitAt B (p + 1)) = true) : coordAt B p =
    { neg := bitAt B (p + 2), mag := (coordInt B p : Rat) + ratio (coordFrac B p) 32 } := by
  rw [coordAt, h, if_pos rfl, ratio_eq_div, Nat.cast_ofNat]

theorem readCoord_readsExactly : ReadsExactly B (readCoord B) p (coordLength B p) (coordAt B p) := by
  cases hflag : bitAt B p || bitAt B (p + 1) with
  | false =>
    rw [coordLength_of_no_flag hflag, coordAt_of_no_flag hflag]
    refine takeBit_readsExactly.bind (takeBit_readsExactly.bind ?_)
    rw [if_pos (Bool.or_eq_false_iff.1 hflag)]
    exact readsExactly_pure SignedMag.zero
  | true =>
    rw [coordLength_of_flag hflag, coordAt_of_flag hflag]
    refine takeBit_readsExactly.bind (takeBit_readsExactly.bind ?_)
    rw [if_neg (by simp [← Bool.or_eq_false_iff, hflag])]
    exact takeBit_readsExactly.bind <| (readCoordInt_readsExactly _).bind <| (readCoordFrac_readsExactly _).map _

/-- The magnitude is the sum of the parts, whether or not a flag announces them. -/
theorem coordAt_mag (B : Buffer) (p : Nat) : (coordAt B p).mag = (coordInt B p : Rat) + (coordFrac B p : Rat) / 32 := by
  cases hflag : bitAt B p || bitAt B (p + 1) with
  | false =>
    obtain ⟨hint, hfrac⟩ := Bool.or_eq_false_iff.1 hflag
    simp [coordAt_of_no_flag hflag, SignedMag.zero, coordInt, coordFrac, hint, hfrac]
  | true => rw [coordAt_of_flag hflag, ratio_eq_div, Nat.cast_ofNat]

theorem coordFrac_lt (B : Buffer) (p : Nat) : coordFrac B p < 32 := by
  unfold coordFrac
  split
  · exact fieldAt_lt B _ 5
  · decide

/-- The fraction part is below the unit of the integer part. -/
theorem coordAt_mag_bounds (B : Buffer) (p : Nat) :
    (coordInt B p : Rat) ≤ (coordAt B p).mag ∧ (coordAt B p).mag < coordInt B p + 1 := by
  have hlow : (0 : Rat) ≤ coordFrac B p := Nat.cast_nonneg _
  have hhigh : (coordFrac B p : Rat) < 32 := by exact_mod_cast coordFrac_lt B p
  rw [coordAt_mag]
  constructor <;> linarith

/-- The magnitude is 0 when both parts are. -/
theorem coordAt_mag_eq_zero_iff (B : Buffer) (p : Nat) : (coordAt B p).mag = 0 ↔ coordInt B p = 0 ∧ coordFrac B p = 0 := by
  rw [coordAt_mag, add_eq_zero_iff_of_nonneg (Nat.cast_nonneg _) (div_nonneg (Nat.cast_nonneg _) (by norm_num))]
  simp

/-- The integer part is 0 exactly when its flag is, for a field that is present counts from 1 (R186). -/
theorem coordInt_eq_zero_iff (B : Buffer) (p : Nat) : coordInt B p = 0 ↔ bitAt B p = false := by
  unfold coordInt
  cases bitAt B p <;> simp

/-- Without an integer part the fraction field follows the sign. -/
theorem coordFrac_eq_zero_iff (hint : bitAt B p = false) :
    coordFrac B p = 0 ↔ bitAt B (p + 1) = false ∨ fieldAt B (p + 3) 5 = 0 := by
  rw [coordFrac, hint]
  cases bitAt B (p + 1) <;> simp [optionalBits]

end Coord

/-- An answered coord is the one at the cursor. -/
theorem coordAt_of_exec {s : State} {b : Block} {k : Nat} {q : SignedMag} (h : s.Ready b)
    (hs : exec .readCoord s = .next (s.succeeds b k (.quantized q))) : q = coordAt b.buf b.pos := by
  rw [exec_readCoord] at hs
  obtain ⟨_, _, hrun, -⟩ := read_bind_eq_ok (run_of_performRead_succeeds h hs)
  exact (readCoord_readsExactly.eq_of_map_succeeds Value.quantized.inj h (lt_bits_of_takeBit_bind hrun).le hs)

/-- Settles O43: the flags fix the length, the sign and the parts that are added. -/
theorem readCoordAddsItsParts : Obligations.ReadCoordAddsItsParts :=
  ⟨rfl, fun _ _ h hp => readCoord_readsExactly.performs (f := .quantized) h hp⟩

/-- Settles O44: the magnitude lies in the unit above the integer part, and is 0 when both parts are. -/
theorem coordMagnitudesFollowTheFlags : Obligations.CoordMagnitudesFollowTheFlags := by
  intro s b k q h hs
  obtain rfl := coordAt_of_exec h hs
  obtain ⟨hlow, hhigh⟩ := coordAt_mag_bounds b.buf b.pos
  refine ⟨fun hint => ?withInt, fun hint => ?withoutInt, ?zero⟩
  case withInt =>
    have hvalue : (coordInt b.buf b.pos : Rat) = fieldAt b.buf (b.pos + 3) 14 + 1 := by
      rw [coordInt, if_pos hint, Nat.cast_add_one]
    have hfield : (0 : Rat) ≤ fieldAt b.buf (b.pos + 3) 14 := Nat.cast_nonneg _
    exact ⟨by linarith, by linarith, by linarith⟩
  case withoutInt => rwa [(coordInt_eq_zero_iff _ _).2 hint, Nat.cast_zero, zero_add] at hhigh
  case zero =>
    rw [SignedMag.value_eq_zero_iff, coordAt_mag_eq_zero_iff, coordInt_eq_zero_iff]
    exact and_congr_right coordFrac_eq_zero_iff

end Sys2Proof.Machine

/-! ## The exceptions (60_exceptions.md)

What the wrapper of R228 does with a command word that reaches no decoder: one that spells no operation (R225), or one that
finds the block faulted (R229). -/

namespace Sys2Proof.Machine

section Exceptions
variable {s : State} {w : Command} {rest : List HostAction} {e : Illegal} {i : Instr} {b : Block}

theorem step_of_illegal (hw : s.pending = .command w :: rest) (hd : decode w = .error e) :
    step s = performIllegal { s with pending := rest } := by
  rw [step_command hw, hd]

/-- On a faulted block every command but REMAINING gets the stored record (R229). -/
theorem exec_faulted (hi : i ≠ .remaining) (hb : s.block = some b) (he : b.err ≠ 0) :
    exec i s = .next (s.respondsOnly (.faulted b.err b.errStart b.errPos)) := by
  obtain ⟨op, hop⟩ := exec_eq_performRead hi
  rw [hop, performRead_faulted hb he]

/-- REMAINING is answered on every loaded block, faulted or not (R229). -/
theorem exec_remaining_loaded (hb : s.block = some b) :
    exec .remaining s = .next (s.respondsOnly (.ok (.natural (b.buf.bits - b.pos)))) :=
  (exec_remaining s).trans (performQuery_eq hb)

end Exceptions

/-- Settles O6: the first error is captured, and a record that stands already is kept. -/
theorem illegalWordRaisesIllegalCommand : Obligations.IllegalWordRaisesIllegalCommand := by
  intro s w rest e b hw hd hb
  rw [step_of_illegal hw hd]
  exact ⟨fun he => performIllegal_first ⟨hb, he⟩, performIllegal_faulted hb⟩

/-- Settles O15: an illegal word, REMAINING and every other command are each answered by their own rule. -/
theorem faultedBlockAnswersOnlyRemaining : Obligations.FaultedBlockAnswersOnlyRemaining := by
  intro s w rest b hw hb he
  cases hd : decode w with
  | error e => exact (step_of_illegal hw hd).trans (performIllegal_faulted hb he)
  | ok i =>
    rw [step_of_decode hw hd]
    by_cases hi : i = .remaining
    · subst hi
      exact exec_remaining_loaded hb
    · simp only [if_neg hi]
      exact exec_faulted hi hb he

end Sys2Proof.Machine

/-! ## Reset and hazards (70_reset_and_hazards.md)

What a step does without a command on a loaded block: it has no block yet (R254), the host has nothing left to do (R259), or
the host performs a `LOAD` (R250).
The empty buffer of R255 is a buffer whose cursor already stands at its end. -/

namespace Sys2Proof.Machine

/-! ### No next state (R32, R254, R259) -/

section Unloaded
variable {s : State}

theorem performRead_unloaded {op : Buffer → Read Value} (hb : s.block = none) : performRead op s = .refused .unloaded := by
  rw [performRead, hb]

theorem performQuery_unloaded {value : Block → Value} (hb : s.block = none) :
    performQuery value s = .refused .unloaded := by
  rw [performQuery, hb]

theorem performIllegal_unloaded (hb : s.block = none) : performIllegal s = .refused .unloaded := by
  rw [performIllegal, hb]

/-- No command is performed before the first `LOAD`, REMAINING included (R254). -/
theorem exec_unloaded (i : Instr) (hb : s.block = none) : exec i s = .refused .unloaded := by
  by_cases hi : i = .remaining
  · subst hi
    exact performQuery_unloaded hb
  · obtain ⟨op, hop⟩ := exec_eq_performRead hi
    rw [hop, performRead_unloaded hb]

/-- The block never starts work by itself (R259). -/
theorem step_idle (hp : s.pending = []) : step s = .refused .hostIdle := by
  simp only [step, nextAction, hp]

end Unloaded

/-- Settles O7: neither a command nor an illegal word finds a block to work on. -/
theorem unloadedBlockRefusesEveryWord : Obligations.UnloadedBlockRefusesEveryWord := by
  intro s w rest hb hw
  cases hd : decode w with
  | ok i => exact (step_of_decode hw hd).trans (exec_unloaded i hb)
  | error e => exact (step_of_illegal hw hd).trans (performIllegal_unloaded hb)

/-- Settles O8: an empty script has no next action. -/
theorem idleHostMeansNoStep : Obligations.IdleHostMeansNoStep := fun _ => step_idle

/-! ### LOAD (R250 to R252) -/

/-- Within the bytes given, the loaded buffer reads as they do (R11, R250). -/
theorem memRead_ofBytes_of_lt {bytes : List Byte} {a : Nat} (h : a < bytes.length) :
    memRead (Buffer.ofBytes bytes) a = bytes[a] := by
  rw [memRead_ofBytes, List.getD_eq_getElem _ _ h]

/-- The bits of the loaded buffer are those of the bytes given, the least-significant one first (R8). -/
theorem bitAt_ofBytes_of_lt {bytes : List Byte} {p : Nat} (h : p / 8 < bytes.length) :
    bitAt (Buffer.ofBytes bytes) p = (bytes[p / 8]).getLsbD (p % 8) := by
  rw [bitAt, memRead_ofBytes_of_lt h]

/-- Settles O9: the new block is `Block.load`, whatever stood there before. -/
theorem loadBindsTheBytesAndResets : Obligations.LoadBindsTheBytesAndResets := by
  intro s bytes rest hp
  exact ⟨Block.load bytes, step_load hp, rfl, rfl, rfl, rfl, rfl, fun _ => memRead_ofBytes_of_lt,
    fun _ => bitAt_ofBytes_of_lt⟩

/-- Settles O11: the reset block is the one `LOAD` of no bytes makes. -/
theorem resetStateMeetsTheInvariant : Obligations.ResetStateMeetsTheInvariant := by
  rintro b ⟨⟩
  exact Block.inv_load []

/-! ### The end of the buffer (R25, R221, R255) -/

section Exhausted
variable {i : Instr} {s : State} {b : Block}

/-- A command that needs a bit does not succeed without one (R47). -/
theorem not_mayConsume_zero (hi : needsABit i = true) : ¬ mayConsume i 0 := by
  intro h
  cases i with
  | remaining => exact absurd hi Bool.false_ne_true
  | readBits n | readAngle n =>
    obtain ⟨hpos, -⟩ := of_decide_eq_true hi
    obtain ⟨hn, -⟩ := h
    omega
  | readByteArray count =>
    have hcount : 1 ≤ count := of_decide_eq_true hi
    obtain hfull | ⟨-, hlow, -⟩ := h <;> omega
  | readBytesForBits nbits =>
    have hpos : 1 ≤ nbits := of_decide_eq_true hi
    exact absurd h (by omega : 0 ≠ nbits)
  | readVarUInt32 | readVarUInt64 | readVarSInt =>
    obtain ⟨g, hg, -, hk⟩ := h
    omega
  | readString =>
    obtain ⟨n, hn⟩ := h
    omega
  | _ => simp [mayConsume] at h

/-- InvalidWidth is for READBITS and READANGLE alone (R222). -/
theorem code_of_mayFail {e : BitVec 3} (h : mayFail i e) :
    e = 1 ∨ e = 3 ∨ ∃ n, i = .readBits n ∨ i = .readAngle n := by
  cases i with
  | remaining => exact h.elim
  | readBits n => exact .inr (.inr ⟨n, .inl rfl⟩)
  | readAngle n => exact .inr (.inr ⟨n, .inr rfl⟩)
  | readVarUInt32 | readVarUInt64 | readVarSInt => exact h.imp_right .inl
  | _ => exact .inl h

/-- On an exhausted block every command that needs a bit fails where it stands (R221). -/
theorem exec_of_exhausted (h : s.Ready b) (hp : b.pos = b.buf.bits) (hi : needsABit i = true) :
    exec i s = .next (s.fails b 1 b.buf.bits) := by
  obtain ⟨k, v, hconsume, -, hbound, -⟩ | ⟨e, q, hfail, hforward, hbound, -, -, hmalformed, hexec⟩ :=
    everyCommandSucceedsOrIsCaptured i s b h hp.le
  · obtain rfl : k = 0 := by omega
    exact absurd hconsume (not_mayConsume_zero hi)
  · obtain rfl : q = b.buf.bits := by omega
    rcases code_of_mayFail hfail with rfl | rfl | ⟨n, rfl | rfl⟩
    · exact hexec
    · have := hmalformed rfl
      omega
    · obtain ⟨hpos, hwide⟩ := of_decide_eq_true hi
      obtain ⟨-, hend, -⟩ := readBitsReturnsTheField.2 n s b h hp.le
      exact hend hwide (by omega)
    · obtain ⟨hpos, hwide⟩ := of_decide_eq_true hi
      obtain ⟨-, hend, -⟩ := readAngleScalesToDegrees.2 n s b h hp.le
      exact hend hwide (by omega)

/-- A zero-size read succeeds on every block that is not faulted (R108). -/
theorem exec_of_zeroSizeRead (h : s.Ready b) (hi : zeroSizeRead i = true) :
    ∃ v, exec i s = .next (s.succeeds b 0 v) := by
  obtain ⟨hbits, hangle, hbyteArray, hbytesForBits⟩ := zeroSizeReadsConsumeNothing s b h
  cases i with
  | readBits n =>
    obtain rfl : n = 0 := of_decide_eq_true hi
    exact ⟨_, hbits⟩
  | readAngle n =>
    obtain rfl : n = 0 := of_decide_eq_true hi
    exact ⟨_, hangle⟩
  | readByteArray count =>
    obtain rfl : count = 0 := of_decide_eq_true hi
    exact ⟨_, hbyteArray⟩
  | readBytesForBits nbits =>
    obtain rfl : nbits = 0 := of_decide_eq_true hi
    exact ⟨_, hbytesForBits⟩
  | _ => exact absurd hi Bool.false_ne_true

end Exhausted

/-- Settles O19: on the empty buffer the cursor of `LOAD` stands at the end already. -/
theorem emptyBufferEndsAtOnce : Obligations.EmptyBufferEndsAtOnce := by
  intro i s hb
  have hready : s.Ready (Block.load []) := ⟨hb, rfl⟩
  exact ⟨exec_remaining_loaded hb, exec_of_exhausted hready rfl, exec_of_zeroSizeRead hready⟩

end Sys2Proof.Machine
